-- ==== Sys2Proof/Word.lean ====
section
/-! DEFINITION. The words of the Float Bitfield Engine: 32-bit port words, 4-bit operation codes, 68-bit command packets and bytes (spec/00_scope.md R8, R9; spec/30_encoding.md R45, R47). -/

namespace Sys2Proof

/-- `Word32` of R9: what `a_i`, `amt_i` and `y_o` carry; bit 0 is the least significant bit (R8). -/
abbrev Word32 := BitVec 32

/-- The 4-bit operation code of `op_i` (R7 `OP_WIDTH`, R45). -/
abbrev OpCode := BitVec 4

/-- The command packet `C68` of R47: `amt` in bits 67..36, `a` in bits 35..4, `op` in bits 3..0. -/
abbrev Packet := BitVec 68

/-- A byte of a host's byte serialisation (R37). -/
abbrev Byte := BitVec 8

end Sys2Proof
end

