-- ==== Sys2Proof/Config.lean ====
section
/-! DEFINITION. The hardwired constants of spec/10_state.md R19, the parameters of spec/00_scope.md R6 and R7, and the free values of the model (what the pipeline stages hold from power-up until the first reset edge, R33). -/

namespace Sys2Proof.Config

/-! ## Field layout (R6, R19). -/

/-- `WORD_WIDTH` (R6). -/
def wordWidth : Nat := 32
/-- `OP_WIDTH` (R7). -/
def opWidth : Nat := 4
/-- `AMT_WIDTH` (R7). -/
def amtWidth : Nat := 32

/-- `SIGN_MASK` (R19): bit 31. -/
def signMask : Word32 := 0x80000000#32
/-- `EXP_MASK` (R19): bits 30..23. -/
def expMask : Word32 := 0x7F800000#32
/-- `MANTISSA_MASK` (R19): bits 22..0. -/
def mantissaMask : Word32 := 0x007FFFFF#32

/-- `SIGN_OFFSET` (R19). -/
def signOffset : Nat := 31
/-- `EXP_OFFSET` (R19). -/
def expOffset : Nat := 23
/-- `EXP_WIDTH` (R6): the exponent lane's width, where its shifts saturate (R71). -/
def expWidth : Nat := 8
/-- `MANT_WIDTH` (R6): the mantissa lane's width, where its shifts saturate (R71). -/
def mantWidth : Nat := 23

/-- `EXP_BIAS_32` (R19). -/
def expBias32 : Int := 127
/-- `EXP_BIAS_64` (R19). No operation reads it (R22); log entry 18. -/
def expBias64 : Int := 1023

/-! ## The open parameter. -/

/-- The default of the `OPEN` parameter `PIPELINE_DEPTH` (R7): 0, a combinational block. A state's own depth is the number
of its stages (`State.depth`), so every statement over all states covers every depth; log entry 4. -/
def defaultPipelineDepth : Nat := 0

/-! ## Free values: stage contents at power-up.
R33 and 93_implementation_defined.md U10 say "any value" until the first edge with `rst_i = 1`; the argument is the stage's
position, 0 for S1. Log entry 6; edges with `rst_i = 0` before that one: log entry 22. -/

/-- The valid bit a stage powers up with. -/
opaque powerUpValid : Nat → Bool
/-- The result word a stage powers up with. -/
opaque powerUpY : Nat → Word32
/-- The illegal flag a stage powers up with. -/
opaque powerUpIll : Nat → Bool

end Sys2Proof.Config
end

