-- ==== Sys2Proof/Syntax.lean ====
section
/-! DEFINITION. The commands of the Float Bitfield Engine: one constructor of `Instr` for each row of spec/opcode_table.json, and the assembler's statements (spec/30_encoding.md R55 to R58). -/

namespace Sys2Proof

/-- The two shift directions: up is toward bit 31, down toward bit 0 (spec/42_mutation.md R70, R73; D5). -/
inductive Direction where
  | up
  | down
deriving DecidableEq, Repr

/-- The two lanes a mutation can shift (R46 bit `L`): the exponent lane, bits 30..23, and the mantissa lane, bits 22..0. -/
inductive Lane where
  | exponent
  | mantissa
deriving DecidableEq, Repr

/-- One operation with the operands it samples (R45, R48, R49): `a` is the word on `a_i`, `amt` the word on `amt_i`.
The seven operations that ignore `amt_i` carry no `amt` (R49, R60). The five reserved codes are instructions as well, as
the opcode table lists them: they carry both words because the disassembler prints both (R59). -/
inductive Instr where
  /-- 0x0 `RAW a`, `toRawBits` (R61). -/
  | raw (a : Word32)
  /-- 0x1 `FRAW a`, `fromRawBits` (R62). -/
  | fraw (a : Word32)
  /-- 0x2 `SGN a`, `signBit` (R64). -/
  | sgn (a : Word32)
  /-- 0x3 `EXPU a`, `exponentUnbiased`: the stored exponent field (R65). -/
  | expu (a : Word32)
  /-- 0x4 `EXPM a`, `exponentRawMasked` (R66). -/
  | expm (a : Word32)
  /-- 0x5 `EXPB a`, `exponentBiased`: the stored field minus 127 (R67). -/
  | expb (a : Word32)
  /-- 0x6 `MANM a`, `mantissaRawMasked` (R68). -/
  | manm (a : Word32)
  /-- 0x8 `SHEU a, amt`, exponent shift up (R74). -/
  | sheu (a amt : Word32)
  /-- 0x9 `SHED a, amt`, exponent shift down (R75). -/
  | shed (a amt : Word32)
  /-- 0xA `SHMU a, amt`, mantissa shift up (R76). -/
  | shmu (a amt : Word32)
  /-- 0xB `SHMD a, amt`, mantissa shift down (R77). -/
  | shmd (a amt : Word32)
  /-- 0x7, reserved: `.illegal 0x7, a, amt` (R52, R84). -/
  | illegal7 (a amt : Word32)
  /-- 0xC, reserved (R52, R84). -/
  | illegalC (a amt : Word32)
  /-- 0xD, reserved (R52, R84). -/
  | illegalD (a amt : Word32)
  /-- 0xE, reserved (R52, R84). -/
  | illegalE (a amt : Word32)
  /-- 0xF, reserved (R52, R84). -/
  | illegalF (a amt : Word32)
deriving DecidableEq, Repr

/-! ## The assembler's statements (R55 to R58) -/

/-- The eleven mnemonics of R50. -/
inductive Mnemonic where
  | raw | fraw | sgn | expu | expm | expb | manm | sheu | shed | shmu | shmd
deriving DecidableEq, Repr

/-- The four pseudo-instructions of R58. -/
inductive Pseudo where
  | she | shm | clrexp | clrman
deriving DecidableEq, Repr

/-- An amount as written (R55): a signed decimal, or the raw `amt_i` bits in hex. -/
inductive AmtLiteral where
  | decimal (s : Int)
  | hex (n : Nat)
deriving DecidableEq, Repr

/-- One assembler statement as written, its ranges not yet checked (R55, R56, R58). A source entry-point name (R57) is
read as the mnemonic it stands for. -/
inductive Stmt where
  | op (m : Mnemonic) (a : Nat) (amt : Option AmtLiteral)
  | pseudo (p : Pseudo) (a : Nat) (amt : Option AmtLiteral)
  | illegal (code : Nat) (a : Nat) (amt : AmtLiteral)
deriving DecidableEq, Repr

end Sys2Proof
end

