-- ==== Sys2Proof/Machine/State.lean ====
section
/-! DEFINITION. The state of the block and of its ports (spec/10_state.md R15 to R17, R30 to R33), the reasons a step can stop, and the state after reset. -/

namespace Sys2Proof.Machine

open Sys2Proof

/-- What F drives: the result word on `y_o` and the flag on `ill_o` (R12, R51). -/
structure Result where
  y : Word32
  ill : Bool
deriving DecidableEq, Repr

/-- One pipeline stage, the triple `(v, y, ill)` of R30. -/
structure Stage where
  v : Bool
  y : Word32
  ill : Bool
deriving DecidableEq, Repr

/-- A stage after reset: `(0, 0x00000000, 0)` (R31, R33). -/
def Stage.cleared : Stage := { v := false, y := 0x00000000#32, ill := false }

/-- The input ports of R16 during one slot of time. `clkEdge` says whether the slot ends with a rising edge of `clk_i`, the
only thing about the clock that any rule reads (R31, R97; log entry 3). `valid`, `rst` and `clkEdge` stand for ports that are
present only at a depth above 0; at depth 0 nothing reads them (log entry 8). -/
structure Inputs where
  op : OpCode
  a : Word32
  amt : Word32
  valid : Bool
  rst : Bool
  clkEdge : Bool
deriving DecidableEq, Repr

/-- The output ports of R16. `valid` is `none` at depth 0, where `valid_o` is absent. -/
structure Outputs where
  valid : Option Bool
  y : Word32
  ill : Bool
deriving DecidableEq, Repr

/-- The state. The block's own state is `stages` alone (R15, R30). `inp` and `comb` are the levels on the input ports and on
F's output wires, which a snapshot of combinational logic must show (log entry 1); `host` is the model's own: what the host
will put on the input ports in the slots to come, oldest first (log entry 2). -/
structure State where
  /-- The levels on the input ports in the latest slot. -/
  inp : Inputs
  /-- The levels on F's output wires: they drive `y_o`/`ill_o` at depth 0 (R17), and stage S1's inputs otherwise (R31). -/
  comb : Result
  /-- The stages S1..Sk, S1 first; k is `PIPELINE_DEPTH` (R30). -/
  stages : List Stage
  /-- The slots to come. -/
  host : List Inputs
deriving DecidableEq, Repr

/-- `PIPELINE_DEPTH` of this block (R7). -/
def State.depth (s : State) : Nat := s.stages.length

/-- Why a run is faulted. `Sys2Proof.Machine.step` itself answers no fault: the block has no way to stop (R18, R95). -/
inductive Fault where
  /-- The host issued a reserved code (R84, 93_implementation_defined.md U8). Raised by `strictStep` alone, the view in
  which a run that issues one is faulted; the block goes on and drives `y_o = 0`, `ill_o = 1` (log entry 7). Safe: in that
  view nothing is claimed of what follows. -/
  | illegalOp (code : OpCode)
deriving DecidableEq, Repr

/-- Why a step has no meaning. -/
inductive Refusal where
  /-- An instruction of the opcode table with no meaning yet, by its mnemonic; raised by a refused arm of `exec` only, and
  there is none left. Safe: nothing is claimed of what follows. -/
  | notModelled (mnemonic : String)
deriving DecidableEq, Repr

/-! ## Reset and power-up -/

/-- The input ports at reset, and at power-up (`State.powerUpAt`). DESIGN CHOICE (log entry 5): the host drives them and the
spec gives no level at either moment; all are 0 and no edge is due. -/
def Inputs.atReset : Inputs :=
  { op := 0x0#4, a := 0x00000000#32, amt := 0x00000000#32, valid := false, rst := false, clkEdge := false }

/-- F's output wires for `Inputs.atReset`: code 0x0 is RAW of the word 0 (R17, R61). -/
def Result.atReset : Result := { y := 0x00000000#32, ill := false }

/-- The block of depth `k` right after an edge with `rst_i = 1` (R33, R97); at depth 0 there is nothing to reset (R96). -/
def State.resetAt (k : Nat) : State :=
  { inp := Inputs.atReset, comb := Result.atReset, stages := List.replicate k Stage.cleared, host := [] }

/-- The machine right after reset, at the default depth (R7, R33). -/
def State.reset : State := State.resetAt Config.defaultPipelineDepth

/-- The block of depth `k` at power-up, before any edge: its stages hold any value (R33, U10), here free values that nothing
can evaluate (log entry 6). The levels on its input ports are those of `Inputs.atReset`, all 0 with no edge due, and F's wires
follow them: DESIGN CHOICE, for the spec gives no level at power-up (log entry 5). Edges with `rst_i = 0` before the first reset
edge: log entry 22. -/
def State.powerUpAt (k : Nat) : State :=
  { State.resetAt k with
    stages := (List.range k).map fun j =>
      { v := Config.powerUpValid j, y := Config.powerUpY j, ill := Config.powerUpIll j } }

end Sys2Proof.Machine
end

