-- ==== Sys2Proof/Machine/Flags.lean ====
section
/-! DEFINITION. The flag `ill_o` (spec/60_exceptions.md R84 to R86): each operation drives its own, none is stored. -/

namespace Sys2Proof.Machine

open Sys2Proof

/-- What a defined operation drives: its word, with `ill_o <- 0` (R85). -/
def definedResult (y : Word32) : Result := { y := y, ill := false }

/-- `raise IllegalOp(op)` (R12, R84): `y_o <- 0x00000000`, `ill_o <- 1`. Nothing records the code. -/
def raiseIllegalOp (_op : OpCode) : Result := { y := 0x00000000#32, ill := true }

end Sys2Proof.Machine
end

