-- ==== Sys2Proof/WellFormed.lean ====
section
/-! DEFINITION. What the assembler refuses, by name (spec/30_encoding.md R56), and the well-formedness of statements. An `Instr` needs no check: each of its operands is a whole port word, and every word is legal (spec/10_state.md R18; spec/30_encoding.md R48, R49). -/

namespace Sys2Proof

/-- Why a line or a statement is refused (R56). `malformed` is a line that has none of the forms of R55. -/
inductive AsmError where
  | malformed
  | unknownMnemonic
  | aOutOfRange
  | amtOutOfRange
  | amtMissing
  | amtNotAllowed
  | codeNotReserved
deriving DecidableEq, Repr

/-- Does this operation take an amount (R50, column "reads amt")? -/
def Mnemonic.readsAmt : Mnemonic → Bool
  | .raw | .fraw | .sgn | .expu | .expm | .expb | .manm => false
  | .sheu | .shed | .shmu | .shmd => true

/-- Is the amount written with a pseudo-instruction (R58: `SHE`, `SHM`) or fixed by it (`CLREXP`, `CLRMAN`)? -/
def Pseudo.readsAmt : Pseudo → Bool
  | .she | .shm => true
  | .clrexp | .clrman => false

/-- The range of an amount literal (R55). -/
def AmtLiteral.inRange : AmtLiteral → Bool
  | .decimal s => decide (-2147483648 ≤ s ∧ s ≤ 2147483647)
  | .hex n => decide (n < 2 ^ 32)

/-- The range of an `a` literal (R55: `0..0xFFFFFFFF`). -/
def aInRange (a : Nat) : Bool := decide (a < 2 ^ 32)

/-- Is this number one of the five reserved codes (R52, R56)? -/
def reservedNumber (n : Nat) : Bool := [0x7, 0xC, 0xD, 0xE, 0xF].contains n

/-- The amount operand of a statement whose operation does, or does not, take one (R56). -/
def checkAmt (reads : Bool) : Option AmtLiteral → Except AsmError Unit
  | none => if reads then .error .amtMissing else .ok ()
  | some l => if reads then (if l.inRange then .ok () else .error .amtOutOfRange) else .error .amtNotAllowed

/-- The checks of R56 on a statement whose mnemonic is known, which R56 does not order: the code first, then `a`, then the
amount (DESIGN CHOICE, log entry 21). -/
def Stmt.check : Stmt → Except AsmError Unit
  | .op m a amt => if aInRange a then checkAmt m.readsAmt amt else .error .aOutOfRange
  | .pseudo p a amt => if aInRange a then checkAmt p.readsAmt amt else .error .aOutOfRange
  | .illegal code a amt =>
    if reservedNumber code then
      if aInRange a then checkAmt true (some amt) else .error .aOutOfRange
    else .error .codeNotReserved

/-- A statement the assembler does not refuse. -/
def Stmt.wellFormed (st : Stmt) : Bool :=
  match st.check with
  | .ok _ => true
  | .error _ => false

end Sys2Proof
end

