-- ==== Sys2Proof/Decode.lean ====
section
/-! DEFINITION. The decoder of the operation code and of the command packet, total on every value (spec/30_encoding.md R45 to R54), and after it the encoder and the byte serialisation (spec/20_memory.md R37). -/

namespace Sys2Proof

/-! ## The fields of the operation code (R46) and of the packet (R47) -/

/-- `M = op[3]`: 0 selects a conversion or an extraction, 1 a mutation. -/
def OpCode.bitM (op : OpCode) : Bool := op.getLsbD 3
/-- `R = op[2]`: with `M = 1` it must be 0 (R46, R52). -/
def OpCode.bitR (op : OpCode) : Bool := op.getLsbD 2
/-- `L = op[1]`: with `M = 1`, the lane. -/
def OpCode.bitL (op : OpCode) : Bool := op.getLsbD 1
/-- `D = op[0]`: with `M = 1`, the direction. -/
def OpCode.bitD (op : OpCode) : Bool := op.getLsbD 0

/-- The lane that bit `L` names: 0 exponent, 1 mantissa. -/
def OpCode.lane (op : OpCode) : Lane := if op.bitL then .mantissa else .exponent
/-- The direction that bit `D` names: 0 up, 1 down. -/
def OpCode.direction (op : OpCode) : Direction := if op.bitD then .down else .up

/-- Packet bits 3..0. -/
def Packet.op (p : Packet) : OpCode := p.extractLsb' 0 4
/-- Packet bits 35..4. -/
def Packet.a (p : Packet) : Word32 := p.extractLsb' 4 32
/-- Packet bits 67..36. -/
def Packet.amt (p : Packet) : Word32 := p.extractLsb' 36 32

/-- The packet of a code and two operand words (R47). -/
def packetOf (op : OpCode) (a amt : Word32) : Packet := amt ++ a ++ op

/-! ## Decoding -/

/-- The operation that the three input ports select: the opcode map of R50 read by its column of bits, M R L D. It refuses
no code (R54); the five codes with no operation are the reserved instructions (R52). -/
def decodePorts (op : OpCode) (a amt : Word32) : Instr :=
  match op.bitM, op.bitR, op.bitL, op.bitD with
  | false, false, false, false => .raw a
  | false, false, false, true  => .fraw a
  | false, false, true,  false => .sgn a
  | false, false, true,  true  => .expu a
  | false, true,  false, false => .expm a
  | false, true,  false, true  => .expb a
  | false, true,  true,  false => .manm a
  | false, true,  true,  true  => .illegal7 a amt
  | true,  false, false, false => .sheu a amt
  | true,  false, false, true  => .shed a amt
  | true,  false, true,  false => .shmu a amt
  | true,  false, true,  true  => .shmd a amt
  | true,  true,  false, false => .illegalC a amt
  | true,  true,  false, true  => .illegalD a amt
  | true,  true,  true,  false => .illegalE a amt
  | true,  true,  true,  true  => .illegalF a amt

/-- The operation a command packet stands for (R47, R51). -/
def decode (p : Packet) : Instr := decodePorts p.op p.a p.amt

/-- Why bits from outside are no command. -/
inductive DecodeError where
  /-- The number does not fit in the 68 bits of a packet (R47); log entry 12. -/
  | widerThanPacket
  /-- A packet is nine bytes, the fewest that hold 68 bits (R37, R47); log entry 12. -/
  | notNineBytes
deriving DecidableEq, Repr

/-- A packet held as a number, as a host stores it (R47: seventeen hex digits). A number of more than 68 bits is refused. -/
def decodeNumber (n : Nat) : Except DecodeError Instr :=
  if n < 2 ^ 68 then .ok (decode (BitVec.ofNat 68 n)) else .error .widerThanPacket

/-- The instruction of an opcode-table word. The table numbers the code `op[3:0]` as bits 3..0, which are bits 3..0 of the
packet; the bits above `nbits` are 0, so both operand words are 0 beyond what the word itself gives. Log entry 12. -/
def decodeTableWord (nbits w : Nat) : Option Instr :=
  match decodeNumber (w % 2 ^ nbits) with
  | .ok i => some i
  | .error _ => none

/-! ## Encoding -/

/-- The code of an instruction (R50). -/
def Instr.opcode : Instr → OpCode
  | .raw _ => 0x0#4
  | .fraw _ => 0x1#4
  | .sgn _ => 0x2#4
  | .expu _ => 0x3#4
  | .expm _ => 0x4#4
  | .expb _ => 0x5#4
  | .manm _ => 0x6#4
  | .illegal7 _ _ => 0x7#4
  | .sheu _ _ => 0x8#4
  | .shed _ _ => 0x9#4
  | .shmu _ _ => 0xA#4
  | .shmd _ _ => 0xB#4
  | .illegalC _ _ => 0xC#4
  | .illegalD _ _ => 0xD#4
  | .illegalE _ _ => 0xE#4
  | .illegalF _ _ => 0xF#4

/-- The word an instruction puts on `a_i`. -/
def Instr.operandA : Instr → Word32
  | .raw a | .fraw a | .sgn a | .expu a | .expm a | .expb a | .manm a => a
  | .sheu a _ | .shed a _ | .shmu a _ | .shmd a _ => a
  | .illegal7 a _ | .illegalC a _ | .illegalD a _ | .illegalE a _ | .illegalF a _ => a

/-- The word an instruction puts on `amt_i`: zero for an operation that ignores it (R56). -/
def Instr.operandAmt : Instr → Word32
  | .raw _ | .fraw _ | .sgn _ | .expu _ | .expm _ | .expb _ | .manm _ => 0x00000000#32
  | .sheu _ amt | .shed _ amt | .shmu _ amt | .shmd _ amt => amt
  | .illegal7 _ amt | .illegalC _ amt | .illegalD _ amt | .illegalE _ amt | .illegalF _ amt => amt

/-- The command packet of an instruction (R47, R56). -/
def encode (i : Instr) : Packet := packetOf i.opcode i.operandA i.operandAmt

/-! ## Byte serialisation (spec/20_memory.md R37; D13, U15)

Little-endian, of a port and of a packet alike. A width that is no whole number of bytes is filled up with zeros in its last
byte, and bytes that hold anything else there are refused: log entry 12. -/

/-- The `k` lowest bytes of a number: byte j carries bits 8j+7..8j. -/
def bytesOfNat (k n : Nat) : List Byte := (List.range k).map fun j => BitVec.ofNat 8 (n / 2 ^ (8 * j))

/-- The number that bytes carry, byte 0 the least significant. -/
def natOfBytes : List Byte → Nat
  | [] => 0
  | b :: bs => b.toNat + 2 ^ 8 * natOfBytes bs

/-- The fewest bytes that hold a width. -/
def byteCount (width : Nat) : Nat := (width + 7) / 8

/-- The bytes of what a port of any width carries, or of a packet (R37, D13). -/
def toBytes {width : Nat} (x : BitVec width) : List Byte := bytesOfNat (byteCount width) x.toNat

/-- What a port of a width carries, from its bytes; `none` for another number of bytes or for a value that does not fit. -/
def ofBytes (width : Nat) (bs : List Byte) : Option (BitVec width) :=
  if bs.length = byteCount width ∧ natOfBytes bs < 2 ^ width then some (BitVec.ofNat width (natOfBytes bs)) else none

/-- The operation of a packet held as bytes, or why it is none. -/
def decodeBytes (bs : List Byte) : Except DecodeError Instr :=
  if bs.length = byteCount 68 then decodeNumber (natOfBytes bs) else .error .notNineBytes

/-- The bytes of an instruction's packet (R37, R47). -/
def encodeBytes (i : Instr) : List Byte := toBytes (encode i)

/-! ## Operations of the code map -/

/-- The codes whose operation ignores `amt_i` and keeps no copy of it: 0x0 to 0x6 (R49, R60). -/
def OpCode.ignoresAmt (op : OpCode) : Bool := !op.bitM && !(op.bitR && op.bitL && op.bitD)

/-- The five reserved codes (R52). -/
def OpCode.reserved (op : OpCode) : Bool :=
  op = 0x7#4 || op = 0xC#4 || op = 0xD#4 || op = 0xE#4 || op = 0xF#4

/-- R60: packets that are one operation although their bits may differ: bits 67..36 count only for a code that reads
`amt_i`, which neither the codes 0x0 to 0x6 nor the reserved codes do. -/
def sameOperation (p q : Packet) : Bool :=
  p.op = q.op && p.a = q.a && (p.op.ignoresAmt || p.op.reserved || p.amt = q.amt)

end Sys2Proof
end

