-- ==== Sys2Proof/Machine/Operands.lean ====
section
/-! DEFINITION. The primitives on words (spec/00_scope.md R10, R11), the fields of a binary32 word (spec/10_state.md R28), the steps a mutation shares (spec/42_mutation.md R70 to R73) and the byte serialisation of a port word (spec/20_memory.md R37). -/

namespace Sys2Proof.Machine

open Sys2Proof

/-! ## Extension and conversion (R11) -/

/-- `sval(w)`: the signed integer a word encodes in two's complement. -/
def sval (w : Word32) : Int := w.toInt

/-- `sext_32(s)`: the word `s mod 2^32`. -/
def sext32 (s : Int) : Word32 := BitVec.ofInt 32 s

/-- `zext_32(u)`: the word whose value is `u`. -/
def zext32 (u : Nat) : Word32 := BitVec.ofNat 32 u

/-- `bool(b)`: 0 or 1. -/
def boolWord (b : Bool) : Word32 := if b then 0x00000001#32 else 0x00000000#32

/-! ## Fields of a binary32 word (R28) -/

/-- `w[31]`. -/
def signField (w : Word32) : Bool := w.getLsbD 31

/-- `w[30:23]`. -/
def exponentField (w : Word32) : BitVec 8 := w.extractLsb' 23 8

/-- `w[22:0]`. -/
def mantissaField (w : Word32) : BitVec 23 := w.extractLsb' 0 23

/-- The word made of three fields: `(sign << 31) | (exponent << 23) | mantissa` (R28). -/
def composeWord (sign : Bool) (exponent : BitVec 8) (mantissa : BitVec 23) : Word32 :=
  (boolWord sign <<< Config.signOffset) ||| (exponent.setWidth 32 <<< Config.expOffset) ||| mantissa.setWidth 32

/-! ## Lanes (R71, R73) -/

/-- The mask of a lane. -/
def laneMask : Lane → Word32
  | .exponent => Config.expMask
  | .mantissa => Config.mantissaMask

/-- The width `W` of a lane (R71). -/
def laneWidth : Lane → Nat
  | .exponent => Config.expWidth
  | .mantissa => Config.mantWidth

/-- The opposite direction, `1 - D` of R70. -/
def flipDirection : Direction → Direction
  | .up => .down
  | .down => .up

/-- `Resolve(D, amt)` (R70): the effective direction and the magnitude, an exact integer. A negative amount shifts the
opposite way. -/
def resolve (d : Direction) (amt : Word32) : Direction × Nat :=
  let s := sval amt
  if 0 ≤ s then (d, s.toNat) else (flipDirection d, (-s).toNat)

/-- The saturation clamp `n := min(mag, W)` (R71). -/
def clampCount (l : Lane) (mag : Nat) : Nat := min mag (laneWidth l)

/-- `LaneShift(a, MASK, dir, n)` (R73). -/
def laneShift (a mask : Word32) (dir : Direction) (n : Nat) : Word32 :=
  let f := a &&& mask
  let g := match dir with
    | .up => (f <<< n) &&& mask
    | .down => (f >>> n) &&& mask
  g ||| (a &&& ~~~mask)

/-- What a mutation of lane `l` with direction bit `d` computes (R74 to R77): resolve, clamp, shift. -/
def mutate (l : Lane) (d : Direction) (a amt : Word32) : Word32 :=
  let r := resolve d amt
  laneShift a (laneMask l) r.1 (clampCount l r.2)

/-! ## Byte serialisation of a 32-bit port (R37) -/

/-- Byte 0 carries bits 7..0 and byte 3 bits 31..24. -/
def wordToBytes (w : Word32) : List Byte := toBytes w

/-- The word of four bytes; another number of bytes is no port word. -/
def wordOfBytes (bs : List Byte) : Option Word32 := ofBytes 32 bs

end Sys2Proof.Machine
end

