-- ==== Sys2Proof/Machine/Ops.lean ====
section
/-! DEFINITION. The named operations on the state: presenting a slot's inputs, the clock edge of spec/10_state.md R31, delivering a result, taking IllegalOp (spec/60_exceptions.md R84, R88), and the output ports (R17, R32). The block has no memory and no registers (R23, R34), so there are no other operations. -/

namespace Sys2Proof.Machine

open Sys2Proof

/-! ## The input ports -/

/-- The inputs of the next slot: what the host has queued, and the present levels with no edge when it has queued nothing
(log entry 2). -/
def nextInputs (s : State) : Inputs :=
  match s.host with
  | [] => { s.inp with clkEdge := false }
  | d :: _ => d

/-- The next slot begins: its levels stand on the input ports (R16, R40: all of them together). -/
def present (s : State) : State := { s with inp := nextInputs s, host := s.host.tail }

/-! ## The clock edge (R31) -/

/-- All stages move at once and `x` enters S1. At depth 0 there is no stage to enter. -/
def shiftIn (x : Stage) (st : List Stage) : List Stage := (x :: st).take st.length

/-- The stages after a slot: unchanged without a rising edge (R94), cleared by an edge with `rst_i = 1`, and otherwise
moved on with the sample in S1, whatever `valid_i` is (R31). An edge with `rst_i = 0` before the first reset edge moves the
stages in the same way, although R33 and U10 leave their contents open until the reset edge: the model's choice, DEDUCED from
R31 (log entry 22). -/
def clockStages (i : Inputs) (r : Result) (st : List Stage) : List Stage :=
  if i.clkEdge then
    if i.rst then st.map fun _ => Stage.cleared
    else shiftIn { v := i.valid, y := r.y, ill := r.ill } st
  else st

/-- Deliver what F drives in this slot: on its output wires at once (R17), and into the stages at the slot's edge (R31). -/
def deliver (r : Result) (s : State) : State :=
  { s with comb := r, stages := clockStages s.inp r s.stages }

/-- Taking the exception IllegalOp, the only one (R84, R88): its output values are its only effect. Nothing is saved and
there is no return (R89). -/
def takeIllegalOp (op : OpCode) (s : State) : State := deliver (raiseIllegalOp op) s

/-! ## The output ports -/

/-- The output ports: F's wires at depth 0 (R17), the last stage otherwise (R32). -/
def outputs (s : State) : Outputs :=
  match s.stages.getLast? with
  | none => { valid := none, y := s.comb.y, ill := s.comb.ill }
  | some k => { valid := some k.v, y := k.y, ill := k.ill }

end Sys2Proof.Machine
end

