-- ==== Sys2Proof/Machine/Conversion.lean ====
section
/-! DEFINITION. Bit-preserving conversion: RAW and FRAW (spec/40_conversion.md R61, R62). -/

namespace Sys2Proof.Machine

open Sys2Proof

/-- R61: `y_o <- a`. -/
def rawResult (a : Word32) : Result := definedResult a

/-- R62: `y_o <- a`. -/
def frawResult (a : Word32) : Result := definedResult a

/-- RAW (R61). -/
def execRaw (a : Word32) (s : State) : Host.Outcome State Fault Refusal := .next (deliver (rawResult a) s)

/-- FRAW (R62). -/
def execFraw (a : Word32) (s : State) : Host.Outcome State Fault Refusal := .next (deliver (frawResult a) s)

end Sys2Proof.Machine
end

