-- ==== Sys2Proof/Machine/Extraction.lean ====
section
/-! DEFINITION. Field extraction: SGN, EXPU, EXPM, EXPB, MANM (spec/41_extraction.md R64 to R68). -/

namespace Sys2Proof.Machine

open Sys2Proof

/-- R64: `(a & SIGN_MASK) >> 31`. -/
def sgnResult (a : Word32) : Result := definedResult ((a &&& Config.signMask) >>> Config.signOffset)

/-- R65: `(a & EXP_MASK) >> 23`. -/
def expuResult (a : Word32) : Result := definedResult ((a &&& Config.expMask) >>> Config.expOffset)

/-- R66: `a & EXP_MASK`. -/
def expmResult (a : Word32) : Result := definedResult (a &&& Config.expMask)

/-- R67: `sext_32(((a & EXP_MASK) >> 23) - 127)`, the subtraction over the integers. -/
def expbResult (a : Word32) : Result :=
  let e : Int := ((a &&& Config.expMask) >>> Config.expOffset).toNat - Config.expBias32
  definedResult (sext32 e)

/-- R68: `a & MANTISSA_MASK`. -/
def manmResult (a : Word32) : Result := definedResult (a &&& Config.mantissaMask)

/-- SGN (R64). -/
def execSgn (a : Word32) (s : State) : Host.Outcome State Fault Refusal := .next (deliver (sgnResult a) s)

/-- EXPU (R65). -/
def execExpu (a : Word32) (s : State) : Host.Outcome State Fault Refusal := .next (deliver (expuResult a) s)

/-- EXPM (R66). -/
def execExpm (a : Word32) (s : State) : Host.Outcome State Fault Refusal := .next (deliver (expmResult a) s)

/-- EXPB (R67). -/
def execExpb (a : Word32) (s : State) : Host.Outcome State Fault Refusal := .next (deliver (expbResult a) s)

/-- MANM (R68). -/
def execManm (a : Word32) (s : State) : Host.Outcome State Fault Refusal := .next (deliver (manmResult a) s)

end Sys2Proof.Machine
end

