-- ==== Sys2Proof/Machine/Illegal.lean ====
section
/-! DEFINITION. The five reserved codes (spec/30_encoding.md R52): each takes IllegalOp, whatever its operand words (spec/60_exceptions.md R84). -/

namespace Sys2Proof.Machine

open Sys2Proof

/-- Code 0x7 (R84). -/
def execIllegal7 (_a _amt : Word32) (s : State) : Host.Outcome State Fault Refusal := .next (takeIllegalOp 0x7#4 s)

/-- Code 0xC (R84). -/
def execIllegalC (_a _amt : Word32) (s : State) : Host.Outcome State Fault Refusal := .next (takeIllegalOp 0xC#4 s)

/-- Code 0xD (R84). -/
def execIllegalD (_a _amt : Word32) (s : State) : Host.Outcome State Fault Refusal := .next (takeIllegalOp 0xD#4 s)

/-- Code 0xE (R84). -/
def execIllegalE (_a _amt : Word32) (s : State) : Host.Outcome State Fault Refusal := .next (takeIllegalOp 0xE#4 s)

/-- Code 0xF (R84). -/
def execIllegalF (_a _amt : Word32) (s : State) : Host.Outcome State Fault Refusal := .next (takeIllegalOp 0xF#4 s)

end Sys2Proof.Machine
end

