-- ==== Sys2Proof/Machine/Mutation.lean ====
section
/-! DEFINITION. Field mutation by saturating shift: SHEU, SHED, SHMU, SHMD (spec/42_mutation.md R74 to R77). -/

namespace Sys2Proof.Machine

open Sys2Proof

/-- R74: the exponent lane, direction bit 0. -/
def sheuResult (a amt : Word32) : Result := definedResult (mutate .exponent .up a amt)

/-- R75: the exponent lane, direction bit 1. -/
def shedResult (a amt : Word32) : Result := definedResult (mutate .exponent .down a amt)

/-- R76: the mantissa lane, direction bit 0. -/
def shmuResult (a amt : Word32) : Result := definedResult (mutate .mantissa .up a amt)

/-- R77: the mantissa lane, direction bit 1. -/
def shmdResult (a amt : Word32) : Result := definedResult (mutate .mantissa .down a amt)

/-- SHEU (R74). -/
def execSheu (a amt : Word32) (s : State) : Host.Outcome State Fault Refusal := .next (deliver (sheuResult a amt) s)

/-- SHED (R75). -/
def execShed (a amt : Word32) (s : State) : Host.Outcome State Fault Refusal := .next (deliver (shedResult a amt) s)

/-- SHMU (R76). -/
def execShmu (a amt : Word32) (s : State) : Host.Outcome State Fault Refusal := .next (deliver (shmuResult a amt) s)

/-- SHMD (R77). -/
def execShmd (a amt : Word32) (s : State) : Host.Outcome State Fault Refusal := .next (deliver (shmdResult a amt) s)

end Sys2Proof.Machine
end

