-- ==== Sys2Proof/Machine/Dispatch.lean ====
section
/-! DEFINITION. One arm per constructor of `Instr` (spec/30_encoding.md R51). -/

namespace Sys2Proof.Machine

open Sys2Proof

def exec (i : Instr) (s : State) : Host.Outcome State Fault Refusal :=
  match i with
  -- conversion (R61, R62)
  | .raw a => Sys2Proof.Machine.execRaw a s
  | .fraw a => Sys2Proof.Machine.execFraw a s
  -- extraction (R64 to R68)
  | .sgn a => Sys2Proof.Machine.execSgn a s
  | .expu a => Sys2Proof.Machine.execExpu a s
  | .expm a => Sys2Proof.Machine.execExpm a s
  | .expb a => Sys2Proof.Machine.execExpb a s
  | .manm a => Sys2Proof.Machine.execManm a s
  -- mutation (R74 to R77)
  | .sheu a amt => Sys2Proof.Machine.execSheu a amt s
  | .shed a amt => Sys2Proof.Machine.execShed a amt s
  | .shmu a amt => Sys2Proof.Machine.execShmu a amt s
  | .shmd a amt => Sys2Proof.Machine.execShmd a amt s
  -- reserved codes (R84)
  | .illegal7 a amt => Sys2Proof.Machine.execIllegal7 a amt s
  | .illegalC a amt => Sys2Proof.Machine.execIllegalC a amt s
  | .illegalD a amt => Sys2Proof.Machine.execIllegalD a amt s
  | .illegalE a amt => Sys2Proof.Machine.execIllegalE a amt s
  | .illegalF a amt => Sys2Proof.Machine.execIllegalF a amt s

end Sys2Proof.Machine
end

