-- ==== Sys2Proof/Machine/Fetch.lean ====
section
/-! DEFINITION. How a step comes by its operation: the block fetches nothing (spec/10_state.md R26) and evaluates what the host presents on the input ports, so fetching is reading those ports in the next slot. -/

namespace Sys2Proof.Machine

open Sys2Proof

/-- The operation that given port levels select (R17, R51). -/
def instrOfInputs (i : Inputs) : Instr := decodePorts i.op i.a i.amt

/-- The operation of the next slot. -/
def fetch (s : State) : Instr := instrOfInputs (nextInputs s)

/-- The port levels that a command packet describes (R47), as a wanted sample: `valid_i = 1` at a rising edge with
`rst_i = 0`, so that it is sampled at every depth (R31, R95). -/
def inputsOfPacket (p : Packet) : Inputs :=
  { op := p.op, a := p.a, amt := p.amt, valid := true, rst := false, clkEdge := true }

/-- The port levels of an opcode-table word (log entry 12). -/
def inputsOfTableWord (nbits w : Nat) : Inputs := inputsOfPacket (BitVec.ofNat 68 (w % 2 ^ nbits))

end Sys2Proof.Machine
end

