-- ==== Sys2Proof/Machine/Step.lean ====
section
/-! DEFINITION. One step: the host's next slot is presented on the input ports and the operation they select is evaluated (spec/10_state.md R17, R31). -/

namespace Sys2Proof.Machine

open Sys2Proof

/-- One slot of time. Without a rising edge only the combinational outputs follow the inputs; with one, the stages move. -/
def step (s : State) : Host.Outcome State Fault Refusal := exec (fetch s) (present s)

/-- `s` with the command of an opcode-table word as the host's next slot (log entry 9). -/
def State.withFetchWord (s : State) (nbits w : Nat) : State :=
  { s with host := inputsOfTableWord nbits w :: s.host.tail }

end Sys2Proof.Machine
end

