-- ==== Sys2Proof/Machine/Assembler.lean ====
section
/-! DEFINITION. The assembler and the disassembler (spec/30_encoding.md R55 to R59): lines of text, statements and packets. They are notation for commands and touch no state; log entry 13 names the conventions R55 leaves open. -/

namespace Sys2Proof.Machine

open Sys2Proof

/-! ## From statements to packets (R56, R58) -/

/-- The code of a mnemonic (R50). -/
def codeOf : Mnemonic → OpCode
  | .raw => 0x0#4 | .fraw => 0x1#4 | .sgn => 0x2#4 | .expu => 0x3#4 | .expm => 0x4#4 | .expb => 0x5#4
  | .manm => 0x6#4 | .sheu => 0x8#4 | .shed => 0x9#4 | .shmu => 0xA#4 | .shmd => 0xB#4

/-- The bits an amount literal puts on `amt_i` (R55): two's complement of a decimal, or the raw bits. -/
def amtBits : AmtLiteral → Word32
  | .decimal s => sext32 s
  | .hex n => zext32 n

/-- The amount of an operation: zero where none is written (R56). -/
def amtOperand : Option AmtLiteral → Word32
  | none => 0x00000000#32
  | some l => amtBits l

/-- What a pseudo-instruction expands to: one operation and its amount (R58). -/
def expandPseudo : Pseudo → Option AmtLiteral → Mnemonic × Option AmtLiteral
  | .she, amt => (.sheu, amt)
  | .shm, amt => (.shmu, amt)
  | .clrexp, _ => (.sheu, some (.decimal 8))
  | .clrman, _ => (.shmu, some (.decimal 23))

/-- The packet of a statement that has passed the checks. -/
def packetOfStmt : Stmt → Packet
  | .op m a amt => packetOf (codeOf m) (zext32 a) (amtOperand amt)
  | .pseudo p a amt => packetOf (codeOf (expandPseudo p amt).1) (zext32 a) (amtOperand (expandPseudo p amt).2)
  | .illegal code a amt => packetOf (BitVec.ofNat 4 code) (zext32 a) (amtBits amt)

/-- Assemble one statement, or refuse it by name (R56). -/
def assemble (st : Stmt) : Except AsmError Packet :=
  match st.check with
  | .error e => .error e
  | .ok _ => .ok (packetOfStmt st)

/-! ## From packets to statements (R59) -/

/-- A non-shift operation: its amount is not printed, whatever bits 67..36 are. -/
def plainStmt (m : Mnemonic) (a : Word32) : Stmt := .op m a.toNat none

/-- A shift operation: the amount is printed as the signed decimal of `sval(amt_i)`. -/
def shiftStmt (m : Mnemonic) (a amt : Word32) : Stmt := .op m a.toNat (some (.decimal (sval amt)))

/-- A reserved code: `.illegal 0xN, a, amt`, both words in hex. -/
def illegalStmt (op : OpCode) (a amt : Word32) : Stmt := .illegal op.toNat a.toNat (.hex amt.toNat)

/-- The statement an instruction is printed as; never a pseudo-instruction (R59). -/
def stmtOfInstr : Instr → Stmt
  | .raw a => plainStmt .raw a
  | .fraw a => plainStmt .fraw a
  | .sgn a => plainStmt .sgn a
  | .expu a => plainStmt .expu a
  | .expm a => plainStmt .expm a
  | .expb a => plainStmt .expb a
  | .manm a => plainStmt .manm a
  | .sheu a amt => shiftStmt .sheu a amt
  | .shed a amt => shiftStmt .shed a amt
  | .shmu a amt => shiftStmt .shmu a amt
  | .shmd a amt => shiftStmt .shmd a amt
  | .illegal7 a amt => illegalStmt 0x7#4 a amt
  | .illegalC a amt => illegalStmt 0xC#4 a amt
  | .illegalD a amt => illegalStmt 0xD#4 a amt
  | .illegalE a amt => illegalStmt 0xE#4 a amt
  | .illegalF a amt => illegalStmt 0xF#4 a amt

/-- Disassemble a packet; total on all 2^68 (R59). -/
def disassemble (p : Packet) : Stmt := stmtOfInstr (decode p)

/-! ## Printing -/

/-- The digit of a number below 16, in upper case: ten of them run on from `'0'` and six from `'A'`. -/
def hexDigit (n : Nat) : Char := Char.ofNat (n + if n < 10 then 48 else 55)

/-- The `k` lowest digits of a number in a base, most significant first, written before `acc`. -/
def fixedDigits (base : Nat) : Nat → Nat → List Char → List Char
  | 0, _, acc => acc
  | k + 1, n, acc => fixedDigits base k (n / base) (hexDigit (n % base) :: acc)

/-- A number in decimal without leading zeros; `fuel` bounds the number of digits. -/
def decimalDigits : Nat → Nat → List Char → List Char
  | 0, _, acc => acc
  | fuel + 1, n, acc =>
    if n < 10 then hexDigit n :: acc else decimalDigits fuel (n / 10) (hexDigit (n % 10) :: acc)

/-- `0x` and eight hex digits (R59). -/
def printWord (n : Nat) : List Char := '0' :: 'x' :: fixedDigits 16 8 n []

/-- A signed decimal; ten digits hold every 32-bit magnitude. -/
def printSigned (s : Int) : List Char :=
  if s < 0 then '-' :: decimalDigits 10 (-s).toNat [] else decimalDigits 10 s.toNat []

/-- An amount: a signed decimal, or eight hex digits. -/
def printAmt : AmtLiteral → List Char
  | .decimal s => printSigned s
  | .hex n => printWord n

/-- The separator of operands. -/
def separator : List Char := [',', ' ']

/-- The upper-case name of R50. -/
def mnemonicName : Mnemonic → List Char
  | .raw => ['R', 'A', 'W'] | .fraw => ['F', 'R', 'A', 'W'] | .sgn => ['S', 'G', 'N']
  | .expu => ['E', 'X', 'P', 'U']
  | .expm => ['E', 'X', 'P', 'M'] | .expb => ['E', 'X', 'P', 'B'] | .manm => ['M', 'A', 'N', 'M']
  | .sheu => ['S', 'H', 'E', 'U']
  | .shed => ['S', 'H', 'E', 'D'] | .shmu => ['S', 'H', 'M', 'U'] | .shmd => ['S', 'H', 'M', 'D']

/-- The upper-case name of R58. -/
def pseudoName : Pseudo → List Char
  | .she => ['S', 'H', 'E'] | .shm => ['S', 'H', 'M'] | .clrexp => ['C', 'L', 'R', 'E', 'X', 'P'] | .clrman => ['C', 'L', 'R', 'M', 'A', 'N']

/-- The second operand with its separator, when there is one. -/
def printOptAmt : Option AmtLiteral → List Char
  | none => []
  | some l => separator ++ printAmt l

/-- A statement as text (R55, R59). -/
def printStmt : Stmt → List Char
  | .op m a amt => mnemonicName m ++ ' ' :: printWord a ++ printOptAmt amt
  | .pseudo p a amt => pseudoName p ++ ' ' :: printWord a ++ printOptAmt amt
  | .illegal code a amt =>
    ['.', 'i', 'l', 'l', 'e', 'g', 'a', 'l', ' ', '0', 'x'] ++ hexDigit code :: separator ++ printWord a ++ separator ++ printAmt amt

/-- The disassembler's line for a packet. -/
def disassembleLine (p : Packet) : List Char := printStmt (disassemble p)

/-! ## Reading -/

/-- Blank space within a line. -/
def isBlank (c : Char) : Bool := c = ' ' || c = '\t'

/-- Drop the blank space at both ends. -/
def trimBlank (cs : List Char) : List Char := ((cs.dropWhile isBlank).reverse.dropWhile isBlank).reverse

/-- The line without its comment: a `;` starts one (R55). -/
def stripComment (cs : List Char) : List Char := cs.takeWhile (· ≠ ';')

/-- The parts between commas. -/
def splitCommas : List Char → List (List Char)
  | [] => [[]]
  | c :: cs =>
    match splitCommas cs with
    | [] => [[c]]
    | w :: ws => if c = ',' then [] :: w :: ws else (c :: w) :: ws

/-- The number whose printed digit this character is, in either case (log entry 13): reading undoes `hexDigit`. -/
def digitValue (c : Char) : Option Nat := (List.range 16).find? fun d => hexDigit d = c.toUpper

/-- The number that digits in a base denote, after `acc`. -/
def digitsValue (base : Nat) : Nat → List Char → Option Nat
  | acc, [] => some acc
  | acc, c :: cs =>
    match digitValue c with
    | some d => if d < base then digitsValue base (acc * base + d) cs else none
    | none => none

/-- One or more digits. -/
def readDigits (base : Nat) (cs : List Char) : Option Nat :=
  match cs with
  | [] => none
  | _ :: _ => digitsValue base 0 cs

/-- A hex literal: `0x` and digits (R13, R55). -/
def readHex : List Char → Option Nat
  | '0' :: 'x' :: cs => readDigits 16 cs
  | _ => none

/-- An unsigned literal, hex or decimal (R55). -/
def readUnsigned (cs : List Char) : Option Nat :=
  match readHex cs with
  | some n => some n
  | none => readDigits 10 cs

/-- A signed decimal literal (R55). Its only sign is a leading `-`; a leading `+`, of which R55 says nothing, leaves the line
malformed. DESIGN CHOICE, log entry 13. -/
def readSigned : List Char → Option Int
  | '-' :: cs => (readDigits 10 cs).map fun n => -(n : Int)
  | cs => (readDigits 10 cs).map fun n => (n : Int)

/-- An amount literal (R55). -/
def readAmt (cs : List Char) : Option AmtLiteral :=
  match readHex cs with
  | some n => some (.hex n)
  | none => (readSigned cs).map .decimal

/-- All eleven mnemonics (R50). -/
def allMnemonics : List Mnemonic :=
  [.raw, .fraw, .sgn, .expu, .expm, .expb, .manm, .sheu, .shed, .shmu, .shmd]

/-- All four pseudo-instructions (R58). -/
def allPseudos : List Pseudo := [.she, .shm, .clrexp, .clrman]

/-- The source's entry points with no direction (R57). -/
def entryPoints : List (List Char × Mnemonic) :=
  [ -- toRawBits
    (['t', 'o', 'R', 'a', 'w', 'B', 'i', 't', 's'], .raw),
    -- fromRawBits
    (['f', 'r', 'o', 'm', 'R', 'a', 'w', 'B', 'i', 't', 's'], .fraw),
    -- signBit
    (['s', 'i', 'g', 'n', 'B', 'i', 't'], .sgn),
    -- exponentUnbiased
    (['e', 'x', 'p', 'o', 'n', 'e', 'n', 't', 'U', 'n', 'b', 'i', 'a', 's', 'e', 'd'], .expu),
    -- exponentRawMasked
    (['e', 'x', 'p', 'o', 'n', 'e', 'n', 't', 'R', 'a', 'w', 'M', 'a', 's', 'k', 'e', 'd'], .expm),
    -- exponentBiased
    (['e', 'x', 'p', 'o', 'n', 'e', 'n', 't', 'B', 'i', 'a', 's', 'e', 'd'], .expb),
    -- mantissaRawMasked
    (['m', 'a', 'n', 't', 'i', 's', 's', 'a', 'R', 'a', 'w', 'M', 'a', 's', 'k', 'e', 'd'], .manm) ]

/-- The source's entry points that take a direction, with the lane they shift (R57). -/
def shiftEntryPoints : List (List Char × Lane) :=
  [ -- shiftExponent
    (['s', 'h', 'i', 'f', 't', 'E', 'x', 'p', 'o', 'n', 'e', 'n', 't'], .exponent),
    -- shiftMantissa
    (['s', 'h', 'i', 'f', 't', 'M', 'a', 'n', 't', 'i', 's', 's', 'a'], .mantissa) ]

/-- The mnemonic of a lane and a direction (R46, R57). -/
def shiftMnemonic : Lane → Direction → Mnemonic
  | .exponent, .up => .sheu
  | .exponent, .down => .shed
  | .mantissa, .up => .shmu
  | .mantissa, .down => .shmd

/-- A direction as an entry point's third argument (R57). -/
def readDirection (cs : List Char) : Option Direction :=
  if cs = ['u', 'p'] then some .up else if cs = ['d', 'o', 'w', 'n'] then some .down else none

/-- What the first word of a line names. -/
inductive HeadWord where
  | op (m : Mnemonic)
  | pseudo (p : Pseudo)
  | entryPoint (m : Mnemonic)
  | shiftEntryPoint (l : Lane)
  | illegal
  | unknown
deriving DecidableEq, Repr

/-- Read the first word: mnemonics in any case, the other names as they are written (R55 to R57). -/
def readHead (w : List Char) : HeadWord :=
  match allMnemonics.find? fun m => mnemonicName m = w.map Char.toUpper with
  | some m => .op m
  | none =>
    match allPseudos.find? fun p => pseudoName p = w.map Char.toUpper with
    | some p => .pseudo p
    | none =>
      match entryPoints.find? fun e => e.1 = w with
      | some e => .entryPoint e.2
      | none =>
        match shiftEntryPoints.find? fun e => e.1 = w with
        | some e => .shiftEntryPoint e.2
        | none => if w = ['.', 'i', 'l', 'l', 'e', 'g', 'a', 'l'] then .illegal else .unknown

/-- The operands `a` and `a, amt`. -/
def readOperands (mk : Nat → Option AmtLiteral → Stmt) : List (List Char) → Except AsmError Stmt
  | [a] =>
    match readUnsigned a with
    | some n => .ok (mk n none)
    | none => .error .malformed
  | [a, amt] =>
    match readUnsigned a, readAmt amt with
    | some n, some l => .ok (mk n (some l))
    | _, _ => .error .malformed
  | _ => .error .malformed

/-- The operands `a, amt, direction` of an entry point that shifts (R57). -/
def readShiftOperands (l : Lane) : List (List Char) → Except AsmError Stmt
  | [a, amt, d] =>
    match readUnsigned a, readAmt amt, readDirection d with
    | some n, some x, some dir => .ok (.op (shiftMnemonic l dir) n (some x))
    | _, _, _ => .error .malformed
  | _ => .error .malformed

/-- The operands `CODE, a, amt` of `.illegal` (R56). -/
def readIllegalOperands : List (List Char) → Except AsmError Stmt
  | [code, a, amt] =>
    match readHex code, readUnsigned a, readAmt amt with
    | some c, some n, some x => .ok (.illegal c n x)
    | _, _, _ => .error .malformed
  | _ => .error .malformed

/-- Read one line; `none` is a line with nothing but blanks and a comment. -/
def readLine (line : List Char) : Except AsmError (Option Stmt) :=
  let cs := trimBlank (stripComment line)
  let word := cs.takeWhile fun c => !isBlank c
  let operands := (splitCommas (cs.dropWhile fun c => !isBlank c)).map trimBlank
  match cs with
  | [] => .ok none
  | _ :: _ =>
    let st := match readHead word with
      | .op m => readOperands (.op m) operands
      | .pseudo p => readOperands (.pseudo p) operands
      | .entryPoint m => readOperands (.op m) operands
      | .shiftEntryPoint l => readShiftOperands l operands
      | .illegal => readIllegalOperands operands
      | .unknown => .error .unknownMnemonic
    st.map some

/-- Assemble one line of text (R55 to R58). -/
def assembleLine (line : List Char) : Except AsmError (Option Packet) :=
  match readLine line with
  | .error e => .error e
  | .ok none => .ok none
  | .ok (some st) => (assemble st).map some

end Sys2Proof.Machine
end

