-- ==== Sys2Proof/Machine/Function.lean ====
section
/-! DEFINITION. The dispatch function F of spec/30_encoding.md R51, written from its table of hex codes, apart from the decoder. -/

namespace Sys2Proof.Machine

open Sys2Proof

/-- `F(op, a, amt)`: the pair `(y_o, ill_o)` for any levels on the three input ports (R17, R18, R51). -/
def dispatchF (op : OpCode) (a amt : Word32) : Result :=
  if op = 0x0#4 then rawResult a
  else if op = 0x1#4 then frawResult a
  else if op = 0x2#4 then sgnResult a
  else if op = 0x3#4 then expuResult a
  else if op = 0x4#4 then expmResult a
  else if op = 0x5#4 then expbResult a
  else if op = 0x6#4 then manmResult a
  else if op = 0x8#4 then sheuResult a amt
  else if op = 0x9#4 then shedResult a amt
  else if op = 0xA#4 then shmuResult a amt
  else if op = 0xB#4 then shmdResult a amt
  else raiseIllegalOp op

/-- F of a slot's inputs. -/
def dispatchInputs (i : Inputs) : Result := dispatchF i.op i.a i.amt

end Sys2Proof.Machine
end

