-- ==== Sys2Proof/Machine/HostView.lean ====
section
/-! DEFINITION. What the host sees and must do: the kinds of result (spec/30_encoding.md R50), reading the outputs (spec/10_state.md R32, spec/60_exceptions.md R95), and the view of R84 in which a run that issues a reserved code is faulted. -/

namespace Sys2Proof.Machine

open Sys2Proof

/-! ## Interpreting a result (R50 column "result kind", R95) -/

/-- A result in the reading its operation gives it. -/
inductive HostValue where
  | word (w : Word32)
  | boolean (b : Bool)
  | unsigned (n : Nat)
  | signed (s : Int)
deriving DecidableEq, Repr

/-- The reading of `y` as the result of code `op`; a reserved code has none. -/
def interpret (op : OpCode) (y : Word32) : Option HostValue :=
  match decodePorts op 0#32 0#32 with
  | .raw _ | .fraw _ | .expm _ => some (.word y)
  | .sgn _ => some (.boolean (y ≠ 0#32))
  | .expu _ | .manm _ => some (.unsigned y.toNat)
  | .expb _ => some (.signed (sval y))
  | .sheu _ _ | .shed _ _ | .shmu _ _ | .shmd _ _ => some (.word y)
  | .illegal7 _ _ | .illegalC _ _ | .illegalD _ _ | .illegalE _ _ | .illegalF _ _ => none

/-- What the outputs tell a host. -/
inductive Reading where
  /-- `valid_o = 0`: the outputs carry no result the host asked for (R32, U9). -/
  | noResult
  /-- `ill_o = 1`: a fault of the host's command stream, not a value (R84, R95). -/
  | fault
  /-- A result. -/
  | result (y : Word32)
deriving DecidableEq, Repr

/-- How the host reads the outputs (R32, R84, R95). At depth 0 there is no `valid_o` and the outputs always carry the
result of the present inputs (R17). -/
def readOutputs (o : Outputs) : Reading :=
  if o.valid = some false then .noResult
  else if o.ill then .fault
  else .result o.y

/-! ## The fault view of R84 -/

/-- Does the host want a result of this slot? Always at depth 0; at a greater depth when the slot is sampled, with
`valid_i = 1` (R16, R31). -/
def wanted (depth : Nat) (i : Inputs) : Bool := depth = 0 || (i.clkEdge && !i.rst && i.valid)

/-- The slot issues a reserved code and asks for its result (log entry 16). -/
def issuesReserved (depth : Nat) (i : Inputs) : Bool := wanted depth i && i.op.reserved

/-- The step in the view of R84 and U8: a run that issues a reserved code is faulted there (95_test_vectors.md P4). -/
def strictStep (s : State) : Host.Outcome State Fault Refusal :=
  if issuesReserved s.depth (nextInputs s) then .fault (.illegalOp (nextInputs s).op) else step s

end Sys2Proof.Machine
end

