-- ==== Sys2Proof/Safety.lean ====
section
/-! DEFINITION. What counts as a safe run, the launch premise, and the invariants statements are made in. -/

namespace Sys2Proof.Machine

open Sys2Proof

/-- The wires out of F carry F of the present inputs (R17). -/
def State.combFollows (s : State) : Prop := s.comb = dispatchInputs s.inp

/-- A stage whose illegal flag is set holds the word 0, as R84 drives it. -/
def Stage.flagged (x : Stage) : Prop := x.ill = true → x.y = 0x00000000#32

/-- The invariant of every step: the combinational wires follow the inputs, and an illegal flag in a stage comes with the
word 0 (R17, R31, R84). It is false of a state with a stage such as `(1, 5, 1)`, which power-up may leave (R33). -/
def State.inv (s : State) : Prop := s.combFollows ∧ ∀ x ∈ s.stages, x.flagged

/-- The launch premise of U10: a reset edge has been applied and nothing sampled since, or there is no stage to reset. -/
def State.launched (s : State) : Prop := s.stages = List.replicate s.depth Stage.cleared

/-- No result on its way through the stages, or on the wires at depth 0, is a fault of the command stream (R84). -/
def State.faultFree (s : State) : Prop :=
  (s.depth = 0 → s.comb.ill = false) ∧ ∀ x ∈ s.stages, x.v = true → x.ill = false

/-- The slots to come, and the levels that stay on the ports after them, issue no reserved code (R84, R95: what the host
must see to). -/
def State.cleanQueue (s : State) : Prop :=
  ∀ i ∈ { s.inp with clkEdge := false } :: s.host, issuesReserved s.depth i = false

/-- A safe state: no fault in flight, and none to be issued. -/
def State.safe (s : State) : Prop := s.faultFree ∧ s.cleanQueue

/-- A slot in which a sample is taken: a rising edge with `rst_i = 0` (R31). -/
def Inputs.sampled (i : Inputs) : Prop := i.clkEdge = true ∧ i.rst = false

/-- A slot with a reset edge (R97). -/
def Inputs.resetEdge (i : Inputs) : Prop := i.clkEdge = true ∧ i.rst = true

/-- The state that a slot's result leaves, written out from the rules for the statements to name: the word and the flag on
F's wires (R17), and the stages as R31 updates them. Nothing else changes. -/
def State.afterResult (s : State) (y : Word32) (ill : Bool) : State :=
  { s with
    comb := { y := y, ill := ill }
    stages :=
      if s.inp.clkEdge = false then s.stages
      else if s.inp.rst = true then List.replicate s.stages.length { v := false, y := 0x00000000#32, ill := false }
      else ({ v := s.inp.valid, y := y, ill := ill } :: s.stages).take s.stages.length }

/-- What a sample puts into S1 (R31): the valid bit and F of the operands. -/
def sampleOf (i : Inputs) : Stage :=
  { v := i.valid, y := (dispatchInputs i).y, ill := (dispatchInputs i).ill }

end Sys2Proof.Machine
end

