-- ==== Sys2Proof/Certificates/Slice0/Obligations.lean ====
section
/-! DEFINITION. The statements for the provers, each from the numbered rules its docstring names. -/

open Sys2Proof Sys2Proof.Machine

/-! ## Conversion (spec/40_conversion.md) -/

/-- R61: code 0x0 is RAW; it answers a next state for every word in every state, with `y_o <- a` and `ill_o <- 0`. -/
def Obligations.RawReturnsItsWord : Prop :=
  ∀ (a amt : Word32) (s : State),
    decodePorts 0x0#4 a amt = .raw a ∧ exec (.raw a) s = .next (s.afterResult a false)

/-- R62: code 0x1 is FRAW; it answers a next state for every word in every state, with `y_o <- a` and `ill_o <- 0`. -/
def Obligations.FrawReturnsItsWord : Prop :=
  ∀ (a amt : Word32) (s : State),
    decodePorts 0x1#4 a amt = .fraw a ∧ exec (.fraw a) s = .next (s.afterResult a false)

/-- R63: each conversion undoes the other, when the second is given the word the first drove. -/
def Obligations.ConversionsRoundTrip : Prop :=
  ∀ (b : Word32) (s : State),
    (∃ t u, exec (.fraw b) s = .next t ∧ exec (.raw t.comb.y) t = .next u ∧ u.comb.y = b) ∧
    (∃ t u, exec (.raw b) s = .next t ∧ exec (.fraw t.comb.y) t = .next u ∧ u.comb.y = b)

/-! ## Extraction (spec/41_extraction.md) -/

/-- R64: code 0x2 is SGN; its result is 1 when bit 31 is set and 0 when it is not. -/
def Obligations.SgnReturnsSignBit : Prop :=
  ∀ (a amt : Word32) (s : State),
    decodePorts 0x2#4 a amt = .sgn a ∧
    exec (.sgn a) s = .next (s.afterResult (if a.getLsbD 31 then 0x00000001#32 else 0x00000000#32) false)

/-- R65: code 0x3 is EXPU; its result is bits 30..23, zero-extended. -/
def Obligations.ExpuReturnsStoredField : Prop :=
  ∀ (a amt : Word32) (s : State),
    decodePorts 0x3#4 a amt = .expu a ∧
    exec (.expu a) s = .next (s.afterResult ((a.extractLsb' 23 8).setWidth 32) false)

/-- R66: code 0x4 is EXPM; its result is the word under the exponent mask. -/
def Obligations.ExpmReturnsFieldInPlace : Prop :=
  ∀ (a amt : Word32) (s : State),
    decodePorts 0x4#4 a amt = .expm a ∧ exec (.expm a) s = .next (s.afterResult (a &&& 0x7F800000#32) false)

/-- R67: code 0x5 is EXPB; its result is the stored field minus 127 over the integers, in two's complement, and reading it
back as a signed integer gives that difference. -/
def Obligations.ExpbReturnsTrueExponent : Prop :=
  ∀ (a amt : Word32) (s : State),
    decodePorts 0x5#4 a amt = .expb a ∧
    ∃ y : Word32, y = BitVec.ofInt 32 (((a.extractLsb' 23 8).toNat : Int) - 127) ∧
      y.toInt = ((a.extractLsb' 23 8).toNat : Int) - 127 ∧
      exec (.expb a) s = .next (s.afterResult y false)

/-- R68: code 0x6 is MANM; its result is bits 22..0, zero-extended. -/
def Obligations.ManmReturnsMantissa : Prop :=
  ∀ (a amt : Word32) (s : State),
    decodePorts 0x6#4 a amt = .manm a ∧
    exec (.manm a) s = .next (s.afterResult ((a.extractLsb' 0 23).setWidth 32) false)

/-- R69: the ranges, `EXPM = EXPU << 23`, `sval(EXPB) = EXPU - 127`, and the recomposition of a word from its sign, its
exponent in place and its mantissa, which are disjoint. -/
def Obligations.ExtractionLaws : Prop :=
  ∀ (a amt : Word32),
    let sgn := (dispatchF 0x2#4 a amt).y
    let expu := (dispatchF 0x3#4 a amt).y
    let expm := (dispatchF 0x4#4 a amt).y
    let expb := (dispatchF 0x5#4 a amt).y
    let manm := (dispatchF 0x6#4 a amt).y
    (sgn = 0#32 ∨ sgn = 1#32) ∧ expu.toNat ≤ 255 ∧ manm.toNat ≤ 0x7FFFFF ∧
    (-127 ≤ expb.toInt ∧ expb.toInt ≤ 128) ∧
    expm = expu <<< 23 ∧
    expb.toInt = (expu.toNat : Int) - 127 ∧
    a = (sgn <<< 31) ||| expm ||| manm ∧
    (sgn <<< 31) &&& expm = 0#32 ∧ (sgn <<< 31) &&& manm = 0#32 ∧ expm &&& manm = 0#32

/-- R50 (result kinds) and R95: how the host reads a result: SGN's as a boolean, EXPU's and MANM's as an unsigned number,
EXPB's as a signed one, those of RAW, FRAW, EXPM and the four shifts as the word itself; a reserved code has no reading. -/
def Obligations.ResultsReadAsTheirKind : Prop :=
  ∀ (a amt y : Word32),
    interpret 0x2#4 (dispatchF 0x2#4 a amt).y = some (.boolean (a.getLsbD 31)) ∧
    interpret 0x3#4 (dispatchF 0x3#4 a amt).y = some (.unsigned (a.extractLsb' 23 8).toNat) ∧
    interpret 0x5#4 (dispatchF 0x5#4 a amt).y = some (.signed (((a.extractLsb' 23 8).toNat : Int) - 127)) ∧
    interpret 0x6#4 (dispatchF 0x6#4 a amt).y = some (.unsigned (a.extractLsb' 0 23).toNat) ∧
    (∀ op ∈ [0x0#4, 0x1#4, 0x4#4, 0x8#4, 0x9#4, 0xA#4, 0xB#4], interpret op y = some (.word y)) ∧
    (∀ op ∈ [0x7#4, 0xC#4, 0xD#4, 0xE#4, 0xF#4], interpret op y = none)

/-! ## Mutation (spec/42_mutation.md) -/

/-- R70: an amount that is not negative keeps the direction; a negative one reverses it; the magnitude is exact, 2^31 for
the least amount. -/
def Obligations.AmountResolution : Prop :=
  ∀ (d : Direction) (amt : Word32),
    (0 ≤ amt.toInt → resolve d amt = (d, amt.toInt.natAbs)) ∧
    (amt.toInt < 0 → resolve .up amt = (.down, amt.toInt.natAbs) ∧ resolve .down amt = (.up, amt.toInt.natAbs)) ∧
    resolve .up 0x80000000#32 = (.down, 2 ^ 31)

/-- R71, R72: the count is the smaller of the magnitude and the lane width, 8 or 23, and so below 32. -/
def Obligations.CountSaturates : Prop :=
  ∀ (mag : Nat),
    clampCount .exponent mag = min mag 8 ∧ clampCount .mantissa mag = min mag 23 ∧
    ∀ l : Lane, clampCount l mag ≤ laneWidth l ∧ laneWidth l ≤ 23 ∧ clampCount l mag < 32

/-- R73, bit by bit and for any mask: a bit outside the mask is kept; a bit inside it comes from the bit of the field `n`
places away, and is 0 where that place lies outside the mask or the word. -/
def Obligations.LaneShiftBits : Prop :=
  ∀ (a mask : Word32) (n i : Nat), i < 32 →
    (mask.getLsbD i = false → ∀ d, (laneShift a mask d n).getLsbD i = a.getLsbD i) ∧
    (mask.getLsbD i = true →
      (laneShift a mask .up n).getLsbD i =
        (decide (n ≤ i) && mask.getLsbD (i - n) && a.getLsbD (i - n)) ∧
      (laneShift a mask .down n).getLsbD i = (mask.getLsbD (i + n) && a.getLsbD (i + n)))

/-- R74: code 0x8 is SHEU: resolve with direction up, clamp to 8, shift the exponent lane. -/
def Obligations.SheuShiftsExponent : Prop :=
  ∀ (a amt : Word32) (s : State),
    decodePorts 0x8#4 a amt = .sheu a amt ∧
    exec (.sheu a amt) s =
      .next (s.afterResult (laneShift a 0x7F800000#32 (resolve .up amt).1 (min (resolve .up amt).2 8)) false)

/-- R75: code 0x9 is SHED: resolve with direction down, clamp to 8, shift the exponent lane. -/
def Obligations.ShedShiftsExponent : Prop :=
  ∀ (a amt : Word32) (s : State),
    decodePorts 0x9#4 a amt = .shed a amt ∧
    exec (.shed a amt) s =
      .next (s.afterResult (laneShift a 0x7F800000#32 (resolve .down amt).1 (min (resolve .down amt).2 8)) false)

/-- R76: code 0xA is SHMU: resolve with direction up, clamp to 23, shift the mantissa lane. -/
def Obligations.ShmuShiftsMantissa : Prop :=
  ∀ (a amt : Word32) (s : State),
    decodePorts 0xA#4 a amt = .shmu a amt ∧
    exec (.shmu a amt) s =
      .next (s.afterResult (laneShift a 0x007FFFFF#32 (resolve .up amt).1 (min (resolve .up amt).2 23)) false)

/-- R77: code 0xB is SHMD: resolve with direction down, clamp to 23, shift the mantissa lane. -/
def Obligations.ShmdShiftsMantissa : Prop :=
  ∀ (a amt : Word32) (s : State),
    decodePorts 0xB#4 a amt = .shmd a amt ∧
    exec (.shmd a amt) s =
      .next (s.afterResult (laneShift a 0x007FFFFF#32 (resolve .down amt).1 (min (resolve .down amt).2 23)) false)

/-- R78 for SHEU and SHED: the exponent field is multiplied or divided by `2^n`, and the sign and the mantissa are kept. -/
def Obligations.ExponentShiftFieldForm : Prop :=
  ∀ (a amt : Word32),
    let n := min amt.toInt.natAbs 8
    let e := (a.extractLsb' 23 8).toNat
    let up := (dispatchF 0x8#4 a amt).y
    let down := (dispatchF 0x9#4 a amt).y
    (0 ≤ amt.toInt → (up.extractLsb' 23 8).toNat = e * 2 ^ n % 2 ^ 8 ∧ (down.extractLsb' 23 8).toNat = e / 2 ^ n) ∧
    (amt.toInt < 0 → (up.extractLsb' 23 8).toNat = e / 2 ^ n ∧ (down.extractLsb' 23 8).toNat = e * 2 ^ n % 2 ^ 8) ∧
    (∀ y, y = up ∨ y = down →
      y.getLsbD 31 = a.getLsbD 31 ∧ y.extractLsb' 0 23 = a.extractLsb' 0 23)

/-- R78 for SHMU and SHMD: the mantissa field is multiplied or divided by `2^n`, and bits 31..23 are kept. -/
def Obligations.MantissaShiftFieldForm : Prop :=
  ∀ (a amt : Word32),
    let n := min amt.toInt.natAbs 23
    let m := (a.extractLsb' 0 23).toNat
    let up := (dispatchF 0xA#4 a amt).y
    let down := (dispatchF 0xB#4 a amt).y
    (0 ≤ amt.toInt → (up.extractLsb' 0 23).toNat = m * 2 ^ n % 2 ^ 23 ∧ (down.extractLsb' 0 23).toNat = m / 2 ^ n) ∧
    (amt.toInt < 0 → (up.extractLsb' 0 23).toNat = m / 2 ^ n ∧ (down.extractLsb' 0 23).toNat = m * 2 ^ n % 2 ^ 23) ∧
    (∀ y, y = up ∨ y = down → y.extractLsb' 23 9 = a.extractLsb' 23 9)

/-- R79: exponent shifts leave SGN and MANM of the word unchanged; mantissa shifts leave SGN, EXPU, EXPM and EXPB unchanged;
so no mutation changes the sign bit. -/
def Obligations.MutationsLeaveOtherFields : Prop :=
  ∀ (a amt x : Word32) (op : OpCode),
    (op = 0x8#4 ∨ op = 0x9#4 →
      ∀ f, f = 0x2#4 ∨ f = 0x6#4 → dispatchF f (dispatchF op a amt).y x = dispatchF f a x) ∧
    (op = 0xA#4 ∨ op = 0xB#4 →
      ∀ f, f = 0x2#4 ∨ f = 0x3#4 ∨ f = 0x4#4 ∨ f = 0x5#4 → dispatchF f (dispatchF op a amt).y x = dispatchF f a x) ∧
    (op = 0x8#4 ∨ op = 0x9#4 ∨ op = 0xA#4 ∨ op = 0xB#4 → (dispatchF op a amt).y.getLsbD 31 = a.getLsbD 31)

/-- R80: a shift by zero is the identity, for each of the four mutations. -/
def Obligations.ZeroShiftIsIdentity : Prop :=
  ∀ (a amt : Word32) (op : OpCode), amt.toInt = 0 →
    op = 0x8#4 ∨ op = 0x9#4 ∨ op = 0xA#4 ∨ op = 0xB#4 → (dispatchF op a amt).y = a

/-- R81: amounts from the lane width on all act as the width; an amount and its negation exchange the directions; and the
least amount, which has no negation, acts as a full shift in the opposite direction. -/
def Obligations.ClampAndSignLaws : Prop :=
  ∀ (a s : Word32),
    (8 ≤ s.toInt → dispatchF 0x8#4 a s = dispatchF 0x8#4 a 8#32 ∧ dispatchF 0x9#4 a s = dispatchF 0x9#4 a 8#32) ∧
    (23 ≤ s.toInt → dispatchF 0xA#4 a s = dispatchF 0xA#4 a 23#32 ∧ dispatchF 0xB#4 a s = dispatchF 0xB#4 a 23#32) ∧
    (∀ t : Word32, t.toInt = -s.toInt →
      dispatchF 0x8#4 a s = dispatchF 0x9#4 a t ∧ dispatchF 0xA#4 a s = dispatchF 0xB#4 a t) ∧
    dispatchF 0x8#4 a 0x80000000#32 = dispatchF 0x9#4 a 8#32 ∧
    dispatchF 0xA#4 a 0x80000000#32 = dispatchF 0xB#4 a 23#32

/-- R82: a shift by at least the lane width, either way, empties the lane. -/
def Obligations.FullShiftEmptiesLane : Prop :=
  ∀ (a amt : Word32),
    (8 ≤ amt.toInt.natAbs →
      (dispatchF 0x8#4 a amt).y = a &&& 0x807FFFFF#32 ∧ (dispatchF 0x9#4 a amt).y = a &&& 0x807FFFFF#32) ∧
    (23 ≤ amt.toInt.natAbs →
      (dispatchF 0xA#4 a amt).y = a &&& 0xFF800000#32 ∧ (dispatchF 0xB#4 a amt).y = a &&& 0xFF800000#32)

/-! ## Reserved codes (spec/60_exceptions.md) -/

/-- R84: each of the five reserved codes takes IllegalOp, for any operand words: a next state with `y_o = 0` and
`ill_o = 1`; and outputs with `ill_o = 1` are never a value the host may use. -/
def Obligations.ReservedCodesTakeIllegalOp : Prop :=
  (∀ (a amt : Word32) (s : State),
    (decodePorts 0x7#4 a amt = .illegal7 a amt ∧
      exec (.illegal7 a amt) s = .next (s.afterResult 0x00000000#32 true)) ∧
    (decodePorts 0xC#4 a amt = .illegalC a amt ∧
      exec (.illegalC a amt) s = .next (s.afterResult 0x00000000#32 true)) ∧
    (decodePorts 0xD#4 a amt = .illegalD a amt ∧
      exec (.illegalD a amt) s = .next (s.afterResult 0x00000000#32 true)) ∧
    (decodePorts 0xE#4 a amt = .illegalE a amt ∧
      exec (.illegalE a amt) s = .next (s.afterResult 0x00000000#32 true)) ∧
    (decodePorts 0xF#4 a amt = .illegalF a amt ∧
      exec (.illegalF a amt) s = .next (s.afterResult 0x00000000#32 true))) ∧
  (∀ (o : Outputs) (y : Word32), o.ill = true → readOutputs o ≠ .result y)

/-- R85: after a step the illegal flag F drives is 1 if and only if the sampled code is reserved. -/
def Obligations.IllFlagIffReservedCode : Prop :=
  ∀ s : State, ∃ t, step s = .next t ∧
    (t.comb.ill = true ↔
      (nextInputs s).op = 0x7#4 ∨ (nextInputs s).op = 0xC#4 ∨ (nextInputs s).op = 0xD#4 ∨
      (nextInputs s).op = 0xE#4 ∨ (nextInputs s).op = 0xF#4)

/-- The fault view of R84 and 93_implementation_defined.md U8 (the model's choice of when a run is faulted: log entries 7
and 16): at depth 0 a reserved code faults the strict run; at a greater depth one that is sampled with `valid_i = 1` does;
in every other case the strict step is the step. -/
def Obligations.StrictRunFaultsOnReservedCode : Prop :=
  ∀ s : State,
    let i := nextInputs s
    let bad := i.op = 0x7#4 ∨ i.op = 0xC#4 ∨ i.op = 0xD#4 ∨ i.op = 0xE#4 ∨ i.op = 0xF#4
    let wants := s.stages.length = 0 ∨ (i.clkEdge = true ∧ i.rst = false ∧ i.valid = true)
    (bad ∧ wants → strictStep s = .fault (.illegalOp i.op)) ∧
    (¬(bad ∧ wants) → strictStep s = step s)

/-! ## Encoding (spec/30_encoding.md) -/

/-- R47, R50, R56: decoding the packet of any instruction, with any operand words, gives that instruction back. -/
def Obligations.DecodeEncodeIsIdentity : Prop :=
  ∀ i : Instr, decode (encode i) = i

/-- R56, R60: encoding what a packet decodes to gives the packet back, but for the amount bits of the codes 0x0 to 0x6, which
are written as zeros. The reserved codes ignore `amt_i` as well; their amount bits come back because a reserved instruction
keeps both words, the model's choice (log entry 11). -/
def Obligations.EncodeDecodeIsCanonical : Prop :=
  ∀ p : Packet,
    (p.op.toNat ≤ 6 → encode (decode p) = p &&& 0x00000000FFFFFFFFF#68) ∧
    (7 ≤ p.op.toNat → encode (decode p) = p)

/-- R60: packets that differ only in bits 67..36 are one operation when the code is 0x0 to 0x6 or reserved, in the model's
comparison and in what they do; with a shift's code the comparison needs the amounts to be equal. -/
def Obligations.AmountBitsDoNotSelect : Prop :=
  ∀ (p q : Packet) (s : State), p.extractLsb' 0 36 = q.extractLsb' 0 36 →
    (p.op.toNat ≤ 7 ∨ 12 ≤ p.op.toNat → sameOperation p q = true ∧ exec (decode p) s = exec (decode q) s) ∧
    (8 ≤ p.op.toNat → p.op.toNat ≤ 11 → (sameOperation p q = true ↔ p = q))

/-- R47: the packet of three port words as a number, the fields read back from it, and the rule's own example. -/
def Obligations.PacketLayout : Prop :=
  (∀ (op : OpCode) (a amt : Word32),
    (packetOf op a amt).toNat = amt.toNat * 2 ^ 36 + a.toNat * 2 ^ 4 + op.toNat ∧
    (packetOf op a amt).op = op ∧ (packetOf op a amt).a = a ∧ (packetOf op a amt).amt = amt) ∧
  packetOf 0x8#4 0x3F800000#32 7#32 = 0x000000073F8000008#68

/-- R46: with bit 3 set and bit 2 clear, bit 1 selects the lane and bit 0 the direction of a mutation; with both set the
code is reserved. -/
def Obligations.OpcodeBitsSelectMutation : Prop :=
  ∀ (op : OpCode) (a amt : Word32) (s : State), op.getLsbD 3 = true →
    (op.getLsbD 2 = false → exec (decodePorts op a amt) s =
      .next (s.afterResult (mutate (if op.getLsbD 1 then .mantissa else .exponent)
        (if op.getLsbD 0 then .down else .up) a amt) false)) ∧
    (op.getLsbD 2 = true → exec (decodePorts op a amt) s = .next (s.afterResult 0x00000000#32 true))

/-- R50, R51: the decoder, which reads the code's bits, and F, which is written from the hex codes, agree on every one of
the 2^68 input combinations, and each gives a next state (R18). -/
def Obligations.DecodedOperationIsF : Prop :=
  ∀ (op : OpCode) (a amt : Word32) (s : State),
    exec (decodePorts op a amt) s = .next (s.afterResult (dispatchF op a amt).y (dispatchF op a amt).ill)

/-- R47, R50: words written out from the encoding, at least one of each family, decode to what they stand for. The first five
are packets of 95_test_vectors.md. The sixth is a word of the opcode table: that it takes the packet's numbering, with operand
words of zeros, is the model's choice (log entry 12), and so is that a reserved instruction carries its operand words, as the
fifth and the sixth do (log entry 11). -/
def Obligations.WrittenPacketsDecode : Prop :=
  decode 0x000000003F8000000#68 = .raw 0x3F800000#32 ∧
  decode 0x0000000012345678B#68 = .shmd 0x12345678#32 0#32 ∧
  decode 0x000000003F0000005#68 = .expb 0x3F000000#32 ∧
  decode 0xFFFFFFFF3F8000008#68 = .sheu 0x3F800000#32 0xFFFFFFFF#32 ∧
  decode 0x000000053F800000C#68 = .illegalC 0x3F800000#32 5#32 ∧
  decodeTableWord 8 0x7 = some (.illegal7 0#32 0#32)

/-! ## Constants and fields (spec/10_state.md) -/

/-- R19, R21: the values of the masks and offsets the operations read, the complements, and that the masks are disjoint and
cover the word. -/
def Obligations.MasksAndConstants : Prop :=
  Config.signMask = 0x80000000#32 ∧ Config.expMask = 0x7F800000#32 ∧ Config.mantissaMask = 0x007FFFFF#32 ∧
  Config.signOffset = 31 ∧ Config.expOffset = 23 ∧ Config.expBias32 = 127 ∧ Config.expBias64 = 1023 ∧
  ~~~Config.expMask = 0x807FFFFF#32 ∧ ~~~Config.mantissaMask = 0xFF800000#32 ∧
  Config.signMask &&& Config.expMask = 0#32 ∧ Config.signMask &&& Config.mantissaMask = 0#32 ∧
  Config.expMask &&& Config.mantissaMask = 0#32 ∧
  Config.signMask ||| Config.expMask ||| Config.mantissaMask = 0xFFFFFFFF#32

/-- R28: the three fields of a word rebuild it. -/
def Obligations.FieldsRecompose : Prop :=
  ∀ w : Word32, composeWord (w.getLsbD 31) (w.extractLsb' 23 8) (w.extractLsb' 0 23) = w

/-- R37: byte j of a port word carries bits 8j+7..8j, and the four bytes give the word back. The same of a port of any width,
`op_i` and the one-bit ports included, whose last byte is filled up with zeros: the model's choice (log entry 12). -/
def Obligations.ByteSerialisationIsLittleEndian : Prop :=
  (∀ w : Word32,
    wordOfBytes (wordToBytes w) = some w ∧ (wordToBytes w).length = 4 ∧
    ∀ j b, (wordToBytes w)[j]? = some b → b.toNat = w.toNat / 2 ^ (8 * j) % 2 ^ 8) ∧
  (∀ (width : Nat) (x : BitVec width),
    ofBytes width (toBytes x) = some x ∧ (toBytes x).length = (width + 7) / 8 ∧
    ∀ j b, (toBytes x)[j]? = some b → b.toNat = x.toNat / 2 ^ (8 * j) % 2 ^ 8)

/-- R37, D13, U15, for packets (R47): nine bytes, of which byte j carries bits 8j+7..8j; they decode to what the packet stands
for. The zeros above bit 67, and that other bytes are refused by name, are the model's choice (log entry 12): the bytes that
decode are exactly those of a packet. -/
def Obligations.PacketBytesAreLittleEndian : Prop :=
  (∀ p : Packet,
    (toBytes p).length = 9 ∧ decodeBytes (toBytes p) = .ok (decode p) ∧
    ∀ j b, (toBytes p)[j]? = some b → b.toNat = p.toNat / 2 ^ (8 * j) % 2 ^ 8) ∧
  (∀ bs : List Byte, bs.length ≠ 9 → decodeBytes bs = .error .notNineBytes) ∧
  (∀ (bs : List Byte) (last : Byte), bs.length = 9 → bs[8]? = some last →
    (16 ≤ last.toNat → decodeBytes bs = .error .widerThanPacket) ∧
    (last.toNat < 16 → ∃ p : Packet, toBytes p = bs ∧ decodeBytes bs = .ok (decode p)))

/-! ## Steps, stages and outputs (spec/10_state.md, spec/70_reset_and_hazards.md) -/

/-- R17, R26, R31: a step runs the operation that the host's next slot presents; the slot's levels stand on the ports, and
with no slot queued the present levels stay, with no edge (log entry 2). -/
def Obligations.StepRunsDecodedOperation : Prop :=
  ∀ s : State,
    (∀ d rest, s.host = d :: rest →
      step s = exec (decode (packetOf d.op d.a d.amt)) { s with inp := d, host := rest }) ∧
    (s.host = [] →
      step s = exec (decode (packetOf s.inp.op s.inp.a s.inp.amt)) { s with inp := { s.inp with clkEdge := false } })

/-- The model's way to place a command as the next slot (log entry 9): the very next step runs it, as a wanted sample. -/
def Obligations.PlacedPacketRunsNext : Prop :=
  ∀ (s : State) (p : Packet),
    step (s.withFetchWord 68 p.toNat) =
      exec (decode p) { s with
        inp := { op := p.op, a := p.a, amt := p.amt, valid := true, rst := false, clkEdge := true }
        host := s.host.tail }

/-- R83, R84, R88: what every instruction leaves unchanged, the reserved codes included: the input ports, the slots to come,
the number of stages, and without a rising edge every stage; and the sampled valid bit is the port's. -/
def Obligations.EveryInstructionFrame : Prop :=
  ∀ (i : Instr) (s t : State), exec i s = .next t →
    t.inp = s.inp ∧ t.host = s.host ∧ t.stages.length = s.stages.length ∧
    (s.inp.clkEdge = false → t.stages = s.stages) ∧
    (s.inp.clkEdge = true → s.inp.rst = false → ∀ x, t.stages.head? = some x →
      x.v = s.inp.valid ∧ x.y = t.comb.y ∧ x.ill = t.comb.ill)

/-- R31: at a rising edge with `rst_i = 0`, S1 takes the sample, whatever `valid_i` is, and every other stage takes what the
one before it held; with `rst_i = 1` every stage is cleared. -/
def Obligations.ClockEdgeMovesStages : Prop :=
  ∀ s : State, (nextInputs s).clkEdge = true → ∃ t, step s = .next t ∧
    t.stages.length = s.stages.length ∧
    ((nextInputs s).rst = true → ∀ x ∈ t.stages, x = { v := false, y := 0x00000000#32, ill := false }) ∧
    ((nextInputs s).rst = false →
      (0 < s.stages.length → t.stages[0]? = some
        { v := (nextInputs s).valid
          y := (dispatchF (nextInputs s).op (nextInputs s).a (nextInputs s).amt).y
          ill := (dispatchF (nextInputs s).op (nextInputs s).a (nextInputs s).amt).ill }) ∧
      ∀ j, j + 1 < s.stages.length → t.stages[j + 1]? = s.stages[j]?)

/-- R94: without a rising edge the stages hold their values, and so do the outputs at a depth above 0. -/
def Obligations.StoppedClockHoldsStages : Prop :=
  ∀ s : State, (nextInputs s).clkEdge = false → ∃ t, step s = .next t ∧ t.stages = s.stages ∧
    (0 < s.depth → outputs t = outputs s)

/-- R17, R32: after any step the outputs are F of the present inputs at depth 0 and the last stage at a greater depth; and
outputs with `valid_o = 0` are read as no result. -/
def Obligations.OutputsFollowInputsOrLastStage : Prop :=
  ∀ s : State, ∃ t, step s = .next t ∧ t.inp = nextInputs s ∧
    (s.depth = 0 → outputs t =
      { valid := none, y := (dispatchF t.inp.op t.inp.a t.inp.amt).y, ill := (dispatchF t.inp.op t.inp.a t.inp.amt).ill }) ∧
    (∀ h : 0 < t.stages.length, outputs t =
      { valid := some (t.stages[t.stages.length - 1]'(Nat.sub_lt h Nat.one_pos)).v
        y := (t.stages[t.stages.length - 1]'(Nat.sub_lt h Nat.one_pos)).y
        ill := (t.stages[t.stages.length - 1]'(Nat.sub_lt h Nat.one_pos)).ill }) ∧
    ((outputs t).valid = some false → readOutputs (outputs t) = .noResult)

/-- R97: `rst_i = 1` does nothing without a rising edge; at an edge it clears every stage, whatever the other inputs and the
stages held, and the outputs stay `(0, 0x00000000, 0)` through the slots that follow, whatever they present and however many
have no edge, while fewer than depth rising edges have come, as many as a sample taken at the first of them needs to reach the
last stage (R101). For slots past the end of the queue the count of edges is the model's choice: they bring none (log
entry 2). -/
def Obligations.ResetEdgeClears : Prop :=
  ∀ s : State, (nextInputs s).rst = true →
    ((nextInputs s).clkEdge = false → ∃ t, step s = .next t ∧ t.stages = s.stages) ∧
    ((nextInputs s).clkEdge = true →
      (∃ t, step s = .next t ∧ t.stages = List.replicate s.depth { v := false, y := 0x00000000#32, ill := false }) ∧
      ∀ m, ((s.host.tail.take m).filter (·.clkEdge)).length < s.depth → ∃ t, Host.Core.run core (m + 1) s = .next t ∧
        outputs t = { valid := some false, y := 0x00000000#32, ill := false })

/-- R33, R96, and R7's default: the state after reset at any depth has cleared stages only, and outputs accordingly; the
machine's reset state is the one of depth 0. The levels on the input ports are the model's choice (log entry 5), and this
says nothing of them. -/
def Obligations.ResetStateValues : Prop :=
  State.reset = State.resetAt 0 ∧
  ∀ k : Nat, (State.resetAt k).depth = k ∧
    (∀ x ∈ (State.resetAt k).stages, x = { v := false, y := 0x00000000#32, ill := false }) ∧
    (0 < k → outputs (State.resetAt k) = { valid := some false, y := 0x00000000#32, ill := false }) ∧
    (k = 0 → outputs (State.resetAt k) =
      { valid := none, y := (dispatchInputs (State.resetAt k).inp).y, ill := (dispatchInputs (State.resetAt k).inp).ill })

/-- R33, R97, R99: from power-up at any depth, whatever the stages then hold (free values, log entry 6), one edge with
`rst_i = 1` meets the launch premise of U10: every stage is cleared. -/
def Obligations.PowerUpThenResetEdgeLaunches : Prop :=
  ∀ (k : Nat) (d : Inputs) (rest : List Inputs), d.resetEdge →
    ∃ t, step { State.powerUpAt k with host := d :: rest } = .next t ∧ t.launched ∧ t.depth = k

/-- R25, R30: no step changes the number of stages. -/
def Obligations.StepKeepsDepth : Prop :=
  ∀ s t : State, step s = .next t → t.depth = s.depth

/-- R18, R95: no state and no inputs make the block stop, for any number of steps. -/
def Obligations.BlockNeverStops : Prop :=
  ∀ (n : Nat) (s : State), ∃ t, Host.Core.run core n s = .next t

/-- R41, R43: what an operation computes depends only on the inputs it samples: two states that agree on the next slot,
whatever came before and whatever their stages hold, drive the same result, take the same sample into S1, and at depth 0 have
the same outputs. -/
def Obligations.ResultDependsOnInputsOnly : Prop :=
  ∀ s s' : State, nextInputs s = nextInputs s' → ∃ t t', step s = .next t ∧ step s' = .next t' ∧
    t.comb = t'.comb ∧
    ((nextInputs s).clkEdge = true → 0 < s.depth → 0 < s'.depth → t.stages.head? = t'.stages.head?) ∧
    (s.depth = 0 → s'.depth = 0 → outputs t = outputs t')

/-- R17, R31, R84: the invariant of every step: F's wires follow the inputs, and a stage whose illegal flag is set holds the
word 0. -/
def Obligations.StepKeepsInvariant : Prop :=
  ∀ s t : State, s.inv → step s = .next t → t.inv

/-- The invariant holds after reset, at every depth. It rests on the input levels at reset (log entry 5). -/
def Obligations.ResetHasInvariant : Prop :=
  ∀ k : Nat, (State.resetAt k).inv

/-- R101: a sample taken at a rising edge is on the outputs after depth - 1 further edges, whatever its code and however many
slots without an edge lie among them, as long as no edge resets; if one of the slots after it is a reset edge, the sample is
discarded: the run ends in the same state whatever the sample was, and no later than that latency the outputs are cleared. -/
def Obligations.SampleLatencyAndDiscard : Prop :=
  ∀ (s : State) (d : Inputs) (later rest : List Inputs), s.host = d :: (later ++ rest) → d.sampled →
    ((∀ i ∈ later, i.clkEdge = true → i.rst = false) →
      (later.filter (·.clkEdge)).length + 1 = s.depth →
      ∃ t, Host.Core.run core (later.length + 1) s = .next t ∧ t.host = rest ∧
        outputs t =
          { valid := some d.valid, y := (dispatchF d.op d.a d.amt).y, ill := (dispatchF d.op d.a d.amt).ill }) ∧
    ((∃ i ∈ later, i.resetEdge) →
      (∀ d' : Inputs, ∃ t, Host.Core.run core (later.length + 1) s = .next t ∧
        Host.Core.run core (later.length + 1) { s with host := d' :: (later ++ rest) } = .next t) ∧
      ((later.filter (·.clkEdge)).length + 1 ≤ s.depth →
        ∃ t, Host.Core.run core (later.length + 1) s = .next t ∧
          outputs t = { valid := some false, y := 0x00000000#32, ill := false }))

/-- R102: with a sample at every edge, the results leave one an edge and in the order of the samples: after j + k edges the
outputs carry sample j (counted from 0), at any depth k above 0. -/
def Obligations.ResultsLeaveInOrder : Prop :=
  ∀ (s : State) (samples rest : List Inputs), s.host = samples ++ rest → (∀ i ∈ samples, i.sampled) → 0 < s.depth →
    ∀ j d, samples[j]? = some d → j + s.depth ≤ samples.length →
      ∃ t, Host.Core.run core (j + s.depth) s = .next t ∧
        outputs t =
          { valid := some d.valid, y := (dispatchF d.op d.a d.amt).y, ill := (dispatchF d.op d.a d.amt).ill }

/-- R84, R95 (the host's side): in a safe state, where no fault is in flight and the slots to come issue no reserved code
that is wanted, the strict run takes its step and stays safe. What is rested on is the model's choice: that a reserved code
faults the strict run and not the step (log entry 7), when it counts as wanted and issued (log entry 16), and that the levels
on the ports stay, with no edge, once the queue is empty (log entry 2). -/
def Obligations.SafeRunsStaySafe : Prop :=
  ∀ s : State, s.safe → ∃ t, strictStep s = .next t ∧ step s = .next t ∧ t.safe

/-- The state after reset is safe, at every depth. It rests on the model's choices: the input levels at reset (log entry 5),
that they stay with no edge (log entry 2), and what counts as a wanted reserved code (log entry 16). -/
def Obligations.ResetIsSafe : Prop :=
  ∀ k : Nat, (State.resetAt k).safe

/-! ## Assembler and disassembler (spec/30_encoding.md) -/

/-- R58: the four pseudo-instructions assemble as their expansions, and are refused where those are. -/
def Obligations.PseudosAssembleAsExpansions : Prop :=
  ∀ (a : Nat) (amt : Option AmtLiteral),
    assemble (.pseudo .she a amt) = assemble (.op .sheu a amt) ∧
    assemble (.pseudo .shm a amt) = assemble (.op .shmu a amt) ∧
    assemble (.pseudo .clrexp a none) = assemble (.op .sheu a (some (.decimal 8))) ∧
    assemble (.pseudo .clrman a none) = assemble (.op .shmu a (some (.decimal 23)))

/-- R55, R56, on statements whose mnemonic is known: what the assembler refuses, what it writes where it does not, and the
amount of an operation that takes none. An amount is in range as R55 gives the ranges. Which refusal is named where several
apply (first the code, then `a`, then the amount), and that `CLREXP` and `CLRMAN` refuse an amount, is the model's reading
(log entry 21). -/
def Obligations.AssemblerRefusals : Prop :=
  ∀ (m : Mnemonic) (p : Pseudo) (c a : Nat) (l : AmtLiteral) (o : Option AmtLiteral),
    let written (code : OpCode) : Except AsmError Packet := match l with
      | .decimal s =>
        if -2147483648 ≤ s ∧ s ≤ 2147483647 then .ok (packetOf code (BitVec.ofNat 32 a) (BitVec.ofInt 32 s))
        else .error .amtOutOfRange
      | .hex n =>
        if n ≤ 0xFFFFFFFF then .ok (packetOf code (BitVec.ofNat 32 a) (BitVec.ofNat 32 n)) else .error .amtOutOfRange
    (0xFFFFFFFF < a → assemble (.op m a o) = .error .aOutOfRange ∧ assemble (.pseudo p a o) = .error .aOutOfRange) ∧
    (a ≤ 0xFFFFFFFF → m ∈ [.sheu, .shed, .shmu, .shmd] →
      assemble (.op m a none) = .error .amtMissing ∧ assemble (.op m a (some l)) = written (codeOf m)) ∧
    (a ≤ 0xFFFFFFFF → m ∉ [.sheu, .shed, .shmu, .shmd] →
      assemble (.op m a (some l)) = .error .amtNotAllowed ∧
      assemble (.op m a none) = .ok (packetOf (codeOf m) (BitVec.ofNat 32 a) 0x00000000#32)) ∧
    (a ≤ 0xFFFFFFFF → p ∈ [.clrexp, .clrman] → assemble (.pseudo p a (some l)) = .error .amtNotAllowed) ∧
    (c ∉ [0x7, 0xC, 0xD, 0xE, 0xF] → assemble (.illegal c a l) = .error .codeNotReserved) ∧
    (c ∈ [0x7, 0xC, 0xD, 0xE, 0xF] →
      (0xFFFFFFFF < a → assemble (.illegal c a l) = .error .aOutOfRange) ∧
      (a ≤ 0xFFFFFFFF → assemble (.illegal c a l) = written (BitVec.ofNat 4 c)))

/-- R56, R59: assembling the statement a packet disassembles to gives the packet back, with zeros for an amount that is not
printed; and a pseudo-instruction is never printed. -/
def Obligations.AssembleDisassemble : Prop :=
  ∀ p : Packet, assemble (disassemble p) = .ok (encode (decode p)) ∧ ∀ q a amt, disassemble p ≠ .pseudo q a amt

/-- R55, R59, as text (the reading of blanks and digits is log entry 13): the line a packet is printed as assembles to that
packet, with zeros for an amount that is not printed. -/
def Obligations.PrintedLinesAssemble : Prop :=
  ∀ p : Packet, assembleLine (disassembleLine p) = .ok (some (encode (decode p)))
end

