-- ==== Sys2Proof/Laws/Assembler.lean ====
section
/-! SUPPORT. What the assembler's readers give on what its printers write: numbers read back, and a line of plain words splits into those words. -/

namespace Sys2Proof.Machine

open Sys2Proof

/-! ## Digits -/

theorem digitValue_hexDigit {d : Nat} (h : d < 16) : digitValue (hexDigit d) = some d := by
  interval_cases d <;> decide

/-- Reading goes through one printed digit at a time. -/
theorem digitsValue_cons {base d : Nat} (acc : Nat) (cs : List Char) (h : d < base) (hb : base ≤ 16) :
    digitsValue base acc (hexDigit d :: cs) = digitsValue base (acc * base + d) cs := by
  rw [digitsValue, digitValue_hexDigit (by omega)]
  simp [h]

/-- `k` printed digits carry the value modulo `base ^ k`. -/
theorem digitsValue_fixedDigits {base : Nat} (hb : base ≤ 16) (h0 : 0 < base) :
    ∀ (k n acc : Nat) (cs : List Char),
      digitsValue base acc (fixedDigits base k n cs) = digitsValue base (acc * base ^ k + n % base ^ k) cs := by
  intro k
  induction k with
  | zero => intro n acc cs; simp [fixedDigits, Nat.mod_one]
  | succ k ih =>
    intro n acc cs
    rw [fixedDigits, ih, digitsValue_cons _ _ (Nat.mod_lt _ h0) hb]
    congr 1
    rw [Nat.pow_succ, Nat.mul_comm (base ^ k) base, Nat.mod_mul]
    ring

/-- A number below `10 ^ fuel` is printed whole in decimal. -/
theorem digitsValue_decimalDigits :
    ∀ (fuel n : Nat) (cs : List Char), 0 < fuel → n < 10 ^ fuel → ∃ ds,
      decimalDigits fuel n cs = ds ++ cs ∧ ds ≠ [] ∧
      (∀ c ∈ ds, ∃ d < 10, c = hexDigit d) ∧ digitsValue 10 0 ds = some n := by
  intro fuel
  induction fuel with
  | zero => intro n cs h; omega
  | succ fuel ih =>
    intro n cs _ hn
    rw [decimalDigits]
    by_cases h : n < 10
    · refine ⟨[hexDigit n], by simp [h], by simp, ?_, ?_⟩
      · intro c hc
        exact ⟨n, h, by simpa using hc⟩
      · rw [digitsValue_cons _ _ h (by omega)]
        simp [digitsValue]
    · have hf : 0 < fuel := by
        rcases Nat.eq_zero_or_pos fuel with rfl | h'
        · simp at hn; omega
        · exact h'
      obtain ⟨ds, h1, h2, h3, h4⟩ := ih (n / 10) (hexDigit (n % 10) :: cs) hf (by rw [Nat.pow_succ] at hn; omega)
      refine ⟨ds ++ [hexDigit (n % 10)], by simp [h, h1], by simp, ?_, ?_⟩
      · intro c hc
        rcases List.mem_append.mp hc with hc | hc
        · exact h3 c hc
        · exact ⟨n % 10, by omega, by simpa using hc⟩
      · have snoc : ∀ (xs : List Char) (acc m d : Nat), d < 10 → digitsValue 10 acc xs = some m →
            digitsValue 10 acc (xs ++ [hexDigit d]) = some (m * 10 + d) := by
          intro xs
          induction xs with
          | nil =>
            intro acc m d hd hm
            simp only [digitsValue, Option.some.injEq] at hm
            rw [List.nil_append, digitsValue_cons _ _ hd (by omega)]
            simp [digitsValue, hm]
          | cons x xs ihx =>
            intro acc m d hd hm
            simp only [List.cons_append, digitsValue] at hm ⊢
            split at hm
            · rename_i v hv
              split at hm
              · rename_i hlt
                simp only [hlt, if_true]
                exact ihx _ _ _ hd hm
              · cases hm
            · cases hm
        rw [snoc ds 0 (n / 10) (n % 10) (by omega) h4]
        congr 1
        omega

/-! ## Numbers -/

theorem readDigits_of_ne_nil {base : Nat} {cs : List Char} (h : cs ≠ []) :
    readDigits base cs = digitsValue base 0 cs := by
  cases cs with
  | nil => exact absurd rfl h
  | cons c cs => rfl

/-- Eight hex digits read back as the word's value (R59). -/
theorem readHex_printWord {n : Nat} (h : n < 2 ^ 32) : readHex (printWord n) = some n := by
  have : digitsValue 16 0 (fixedDigits 16 8 n []) = some n := by
    rw [digitsValue_fixedDigits (by omega) (by omega), digitsValue]
    congr 1
    omega
  rw [printWord, readHex, readDigits_of_ne_nil (by simp [fixedDigits]), this]

theorem readUnsigned_printWord {n : Nat} (h : n < 2 ^ 32) : readUnsigned (printWord n) = some n := by
  simp [readUnsigned, readHex_printWord h]

/-- A character that is neither a blank, nor a comma, nor the start of a comment. -/
def plainChar (c : Char) : Bool := !isBlank c && c ≠ ',' && c ≠ ';'

theorem plainChar_hexDigit {d : Nat} (h : d < 16) : plainChar (hexDigit d) = true := by
  interval_cases d <;> decide

theorem plain_printWord (n : Nat) : ∀ c ∈ printWord n, plainChar c = true := by
  intro c hc
  simp only [printWord, fixedDigits, List.mem_cons, List.not_mem_nil, or_false] at hc
  rcases hc with rfl | rfl | hc
  · decide
  · decide
  · rcases hc with rfl | rfl | rfl | rfl | rfl | rfl | rfl | rfl <;>
      exact plainChar_hexDigit (Nat.mod_lt _ (by omega))

/-- A signed decimal of a 32-bit amount reads back, and its characters are plain (R55, R59). -/
theorem readAmt_printSigned {s : Int} (h : s.natAbs < 10 ^ 10) :
    readAmt (printSigned s) = some (.decimal s) ∧ ∀ c ∈ printSigned s, plainChar c = true := by
  have notHex : ∀ {d : Nat}, d < 10 → hexDigit d ≠ 'x' := by
    intro d hd
    interval_cases d <;> decide
  have notMinus : ∀ {d : Nat}, d < 10 → hexDigit d ≠ '-' := by
    intro d hd
    interval_cases d <;> decide
  by_cases hs : s < 0
  · obtain ⟨ds, h1, h2, h3, h4⟩ := digitsValue_decimalDigits 10 (-s).toNat [] (by omega) (by omega)
    have hp : printSigned s = '-' :: ds := by simp [printSigned, hs, h1]
    rw [hp]
    refine ⟨?_, ?_⟩
    · obtain ⟨d, ds', rfl⟩ := List.exists_cons_of_ne_nil h2
      simp only [readAmt, readHex, readSigned, readDigits, h4]
      simp
      omega
    · intro c hc
      rcases List.mem_cons.mp hc with rfl | hc
      · decide
      · obtain ⟨d, hd, rfl⟩ := h3 c hc
        exact plainChar_hexDigit (by omega)
  · obtain ⟨ds, h1, h2, h3, h4⟩ := digitsValue_decimalDigits 10 s.toNat [] (by omega) (by omega)
    have hp : printSigned s = ds := by simp [printSigned, hs, h1]
    rw [hp]
    refine ⟨?_, ?_⟩
    · have hr : readHex ds = none := by
        match ds, h3 with
        | [], _ => rfl
        | [c], _ =>
          rw [readHex]
          intro cs hcs
          simp at hcs
        | c :: c' :: cs, h3 =>
          rw [readHex]
          intro cs' hcs
          obtain ⟨d, hd, hc⟩ := h3 c' (by simp)
          simp only [List.cons.injEq] at hcs
          exact notHex hd (hc ▸ hcs.2.1)
      have hn : readSigned ds = (readDigits 10 ds).map fun n => (n : Int) := by
        match ds, h3 with
        | [], _ => rfl
        | c :: cs, h3 =>
          rw [readSigned]
          intro cs' hcs
          obtain ⟨d, hd, hc⟩ := h3 c (by simp)
          simp only [List.cons.injEq] at hcs
          exact notMinus hd (hc ▸ hcs.1)
      obtain ⟨d, ds', rfl⟩ := List.exists_cons_of_ne_nil h2
      simp only [readAmt, hr, hn, readDigits, h4]
      simp
      omega
    · intro c hc
      obtain ⟨d, hd, rfl⟩ := h3 c hc
      exact plainChar_hexDigit (by omega)

/-! ## Lines -/

theorem trimBlank_plain {w : List Char} (h : ∀ c ∈ w, plainChar c = true) : trimBlank w = w := by
  have nb : ∀ {u : List Char}, (∀ c ∈ u, plainChar c = true) → u.dropWhile isBlank = u := by
    intro u hu
    cases u with
    | nil => rfl
    | cons c cs =>
      have := hu c (by simp)
      simp only [plainChar, Bool.and_eq_true, Bool.not_eq_true'] at this
      simp [this.1.1]
  rw [trimBlank, nb h, nb (by simpa using h), List.reverse_reverse]

theorem splitCommas_plain {w : List Char} (h : ∀ c ∈ w, plainChar c = true) : splitCommas w = [w] := by
  induction w with
  | nil => rfl
  | cons c cs ih =>
    have hc := h c (by simp)
    simp only [plainChar, Bool.and_eq_true, decide_eq_true_eq] at hc
    rw [splitCommas, ih fun x hx => h x (by simp [hx])]
    simp [hc.1.2]

theorem splitCommas_append {w : List Char} (rest : List Char) (h : ∀ c ∈ w, c ≠ ',') :
    splitCommas (w ++ ',' :: rest) = w :: splitCommas rest := by
  have nonempty : ∀ u : List Char, splitCommas u ≠ [] := by
    intro u
    cases u with
    | nil => simp [splitCommas]
    | cons c cs =>
      rw [splitCommas]
      split
      · simp
      · split <;> simp
  induction w with
  | nil =>
    obtain ⟨x, xs, hx⟩ := List.exists_cons_of_ne_nil (nonempty rest)
    simp [splitCommas, hx]
  | cons c cs ih =>
    have hc := h c (by simp)
    rw [List.cons_append, splitCommas, ih fun x hx => h x (by simp [hx])]
    simp [hc]

end Sys2Proof.Machine
end

