-- ==== Sys2Proof/Laws/Bytes.lean ====
section
/-! SUPPORT. Byte serialisation: how many bytes there are, what each carries, and that the number they carry is the one written. -/

namespace Sys2Proof

/-! ## Writing -/

theorem bytesOfNat_length (k n : Nat) : (bytesOfNat k n).length = k := by simp [bytesOfNat]

/-- Byte j carries bits 8j+7..8j (R37). -/
theorem bytesOfNat_get {k n j : Nat} {b : Byte} (h : (bytesOfNat k n)[j]? = some b) :
    b.toNat = n / 2 ^ (8 * j) % 2 ^ 8 := by
  simp only [bytesOfNat, List.getElem?_map, Option.map_eq_some_iff, List.getElem?_eq_some_iff] at h
  obtain ⟨i, ⟨hj, rfl⟩, rfl⟩ := h
  simp

/-- Byte 0 first, then the bytes of the rest. -/
theorem bytesOfNat_succ (k n : Nat) :
    bytesOfNat (k + 1) n = BitVec.ofNat 8 n :: bytesOfNat k (n / 2 ^ 8) := by
  simp only [bytesOfNat, List.range_succ_eq_map, List.map_cons, List.map_map]
  refine congrArg₂ List.cons (by simp) (List.map_congr_left fun j _ => ?_)
  simp only [Function.comp, Nat.div_div_eq_div_mul, ← Nat.pow_add]
  congr 3
  omega

theorem toBytes_length {width : Nat} (x : BitVec width) : (toBytes x).length = byteCount width :=
  bytesOfNat_length _ _

/-! ## Reading -/

theorem natOfBytes_lt (bs : List Byte) : natOfBytes bs < 2 ^ (8 * bs.length) := by
  induction bs with
  | nil => simp [natOfBytes]
  | cons b bs ih =>
    have hb := b.isLt
    rw [natOfBytes, List.length_cons, Nat.mul_succ, Nat.pow_add]
    omega

/-- `k` bytes keep a number modulo `2 ^ (8 * k)`. -/
theorem natOfBytes_bytesOfNat (k n : Nat) : natOfBytes (bytesOfNat k n) = n % 2 ^ (8 * k) := by
  induction k generalizing n with
  | zero => simp [bytesOfNat, natOfBytes, Nat.mod_one]
  | succ k ih =>
    rw [bytesOfNat_succ, natOfBytes, ih, Nat.mul_succ, Nat.add_comm (8 * k) 8, Nat.pow_add, Nat.mod_mul]
    simp

/-- Bytes are written as they were read. -/
theorem bytesOfNat_natOfBytes (bs : List Byte) : bytesOfNat bs.length (natOfBytes bs) = bs := by
  induction bs with
  | nil => rfl
  | cons b bs ih =>
    have hb := b.isLt
    have hd : (b.toNat + 2 ^ 8 * natOfBytes bs) / 2 ^ 8 = natOfBytes bs := by omega
    rw [List.length_cons, bytesOfNat_succ, natOfBytes, hd, ih]
    congr 1
    apply BitVec.eq_of_toNat_eq
    rw [BitVec.toNat_ofNat]
    omega

/-- A width's bytes hold all of its values. -/
theorem natOfBytes_toBytes {width : Nat} (x : BitVec width) : natOfBytes (toBytes x) = x.toNat := by
  rw [toBytes, natOfBytes_bytesOfNat]
  refine Nat.mod_eq_of_lt (Nat.lt_of_lt_of_le x.isLt (Nat.pow_le_pow_right (by omega) ?_))
  unfold byteCount
  omega

end Sys2Proof
end

