-- ==== Sys2Proof/Laws/Operands.lean ====
section
/-! SUPPORT. The masks bit by bit, and the shared steps of a mutation. -/

namespace Sys2Proof.Machine

open Sys2Proof

theorem expMask_getLsbD (i : Nat) : Config.expMask.getLsbD i = decide (23 ≤ i ∧ i < 31) := by
  by_cases h : i < 32
  · interval_cases i <;> decide
  · rw [BitVec.getLsbD_of_ge _ _ (by omega)]
    simp; omega

theorem mantissaMask_getLsbD (i : Nat) : Config.mantissaMask.getLsbD i = decide (i < 23) := by
  by_cases h : i < 32
  · interval_cases i <;> decide
  · rw [BitVec.getLsbD_of_ge _ _ (by omega)]
    simp; omega

theorem signMask_getLsbD (i : Nat) : Config.signMask.getLsbD i = decide (i = 31) := by
  by_cases h : i < 32
  · interval_cases i <;> decide
  · rw [BitVec.getLsbD_of_ge _ _ (by omega)]
    simp; omega

/-- The magnitude of a resolved amount does not depend on the direction. -/
theorem resolve_magnitude (d : Direction) (amt : Word32) : (resolve d amt).2 = amt.toInt.natAbs := by
  by_cases h : 0 ≤ amt.toInt
  · simp [resolve, sval, h]; omega
  · simp [resolve, sval, h]; omega

theorem clampCount_le (l : Lane) (mag : Nat) : clampCount l mag ≤ laneWidth l := Nat.min_le_right _ _

end Sys2Proof.Machine
end

