-- ==== Sys2Proof/Laws/State.lean ====
section
/-! SUPPORT. One lemma per field and update of the state. -/

namespace Sys2Proof.Machine

open Sys2Proof

/-! ## `deliver` -/

@[simp] theorem deliver_inp (r : Result) (s : State) : (deliver r s).inp = s.inp := rfl
@[simp] theorem deliver_comb (r : Result) (s : State) : (deliver r s).comb = r := rfl
@[simp] theorem deliver_stages (r : Result) (s : State) :
    (deliver r s).stages = clockStages s.inp r s.stages := rfl
@[simp] theorem deliver_host (r : Result) (s : State) : (deliver r s).host = s.host := rfl

/-! ## `present` -/

@[simp] theorem present_inp (s : State) : (present s).inp = nextInputs s := rfl
@[simp] theorem present_comb (s : State) : (present s).comb = s.comb := rfl
@[simp] theorem present_stages (s : State) : (present s).stages = s.stages := rfl
@[simp] theorem present_host (s : State) : (present s).host = s.host.tail := rfl

theorem nextInputs_cons {s : State} {d : Inputs} {rest : List Inputs} (h : s.host = d :: rest) :
    nextInputs s = d := by simp [nextInputs, h]

theorem nextInputs_nil {s : State} (h : s.host = []) : nextInputs s = { s.inp with clkEdge := false } := by
  simp [nextInputs, h]

/-! ## `withFetchWord` -/

@[simp] theorem withFetchWord_inp (s : State) (nbits w : Nat) : (s.withFetchWord nbits w).inp = s.inp := rfl
@[simp] theorem withFetchWord_comb (s : State) (nbits w : Nat) : (s.withFetchWord nbits w).comb = s.comb := rfl
@[simp] theorem withFetchWord_stages (s : State) (nbits w : Nat) :
    (s.withFetchWord nbits w).stages = s.stages := rfl
@[simp] theorem withFetchWord_host (s : State) (nbits w : Nat) :
    (s.withFetchWord nbits w).host = inputsOfTableWord nbits w :: s.host.tail := rfl

/-! ## Reset -/

@[simp] theorem resetAt_inp (k : Nat) : (State.resetAt k).inp = Inputs.atReset := rfl
@[simp] theorem resetAt_comb (k : Nat) : (State.resetAt k).comb = Result.atReset := rfl
@[simp] theorem resetAt_stages (k : Nat) : (State.resetAt k).stages = List.replicate k Stage.cleared := rfl
@[simp] theorem resetAt_host (k : Nat) : (State.resetAt k).host = [] := rfl

/-- Power-up differs from reset in the stages alone, and has as many of them. -/
theorem powerUpAt_depth (k : Nat) : (State.powerUpAt k).depth = k := by
  simp [State.powerUpAt, State.depth]

end Sys2Proof.Machine
end

