-- ==== Sys2Proof/Laws/Ops.lean ====
section
/-! SUPPORT. What each shared operation can do, said once: the clock edge, delivering a result, the dispatch, the step and the output ports. -/

namespace Sys2Proof.Machine

open Sys2Proof

/-! ## The clock edge -/

@[simp] theorem shiftIn_length (x : Stage) (st : List Stage) : (shiftIn x st).length = st.length := by
  simp [shiftIn]

theorem clockStages_idle {i : Inputs} (h : i.clkEdge = false) (r : Result) (st : List Stage) :
    clockStages i r st = st := by simp [clockStages, h]

theorem clockStages_reset {i : Inputs} (h : i.resetEdge) (r : Result) (st : List Stage) :
    clockStages i r st = List.replicate st.length Stage.cleared := by
  simp [clockStages, h.1, h.2, List.map_const']

theorem clockStages_sample {i : Inputs} (h : i.sampled) (r : Result) (st : List Stage) :
    clockStages i r st = shiftIn { v := i.valid, y := r.y, ill := r.ill } st := by
  simp [clockStages, h.1, h.2]

@[simp] theorem clockStages_length (i : Inputs) (r : Result) (st : List Stage) :
    (clockStages i r st).length = st.length := by
  simp only [clockStages]
  split
  · split <;> simp
  · rfl

/-- Where a stage after a slot comes from: it was there before, or it is cleared, or it is the sample. -/
theorem mem_clockStages {i : Inputs} {r : Result} {st : List Stage} {x : Stage} (h : x ∈ clockStages i r st) :
    x ∈ st ∨ x = Stage.cleared ∨ (i.sampled ∧ x = { v := i.valid, y := r.y, ill := r.ill }) := by
  simp only [clockStages] at h
  split at h
  · rename_i he
    split at h
    · simp only [List.mem_map] at h
      obtain ⟨_, _, rfl⟩ := h
      exact .inr (.inl rfl)
    · rename_i hr
      rcases List.mem_cons.mp (List.mem_of_mem_take h) with rfl | h
      · exact .inr (.inr ⟨⟨he, by simpa using hr⟩, rfl⟩)
      · exact .inl h
  · exact .inl h

/-! ## Delivering a result -/

/-- The operation the meanings share does what R17 and R31 write out. -/
theorem deliver_eq_afterResult (r : Result) (s : State) : deliver r s = s.afterResult r.y r.ill := by
  cases hc : s.inp.clkEdge <;> cases hr : s.inp.rst <;>
    simp [deliver, State.afterResult, clockStages, shiftIn, hc, hr, Stage.cleared, List.map_const']

/-! ## Dispatch and step -/

/-- Every instruction answers a next state, and delivers F of its own code and operands. -/
theorem exec_eq (i : Instr) (s : State) :
    exec i s = .next (deliver (dispatchF i.opcode i.operandA i.operandAmt) s) := by
  cases i <;> rfl

/-- Decoding the ports and executing delivers F of the ports: the decoder, which reads the bits of the code, agrees with F,
which compares its hex value. -/
theorem exec_decodePorts (op : OpCode) (a amt : Word32) (s : State) :
    exec (decodePorts op a amt) s = .next (deliver (dispatchF op a amt) s) := by
  have codes : ∀ c : BitVec 4, c = 0x0#4 ∨ c = 0x1#4 ∨ c = 0x2#4 ∨ c = 0x3#4 ∨ c = 0x4#4 ∨ c = 0x5#4 ∨ c = 0x6#4 ∨
      c = 0x7#4 ∨ c = 0x8#4 ∨ c = 0x9#4 ∨ c = 0xA#4 ∨ c = 0xB#4 ∨ c = 0xC#4 ∨ c = 0xD#4 ∨ c = 0xE#4 ∨ c = 0xF#4 := by
    decide
  rcases codes op with
    rfl | rfl | rfl | rfl | rfl | rfl | rfl | rfl | rfl | rfl | rfl | rfl | rfl | rfl | rfl | rfl <;> rfl

/-- What a step does, whole: it delivers F of the next slot's inputs to the state in which they stand on the ports. -/
theorem step_eq (s : State) : step s = .next (deliver (dispatchInputs (nextInputs s)) (present s)) :=
  exec_decodePorts _ _ _ _

theorem step_inversion {s t : State} (h : step s = .next t) :
    t = deliver (dispatchInputs (nextInputs s)) (present s) := by
  rw [step_eq] at h
  exact (Host.Outcome.next.inj h).symm

/-! ## Output ports -/

theorem outputs_depth_zero {s : State} (h : s.depth = 0) :
    outputs s = { valid := none, y := s.comb.y, ill := s.comb.ill } := by
  have : s.stages = [] := List.length_eq_zero_iff.mp h
  simp [outputs, this]

theorem outputs_last {s : State} {x : Stage} (h : s.stages.getLast? = some x) :
    outputs s = { valid := some x.v, y := x.y, ill := x.ill } := by
  simp [outputs, h]

end Sys2Proof.Machine
end

