-- ==== Sys2Proof/Laws/PerInstr.lean ====
section
/-! SUPPORT. Statements about every instruction as it is written, one lemma per constructor. -/

namespace Sys2Proof

/-- A packet is the sum of its three fields at their weights (R47). -/
theorem packetOf_toNat (op : OpCode) (a amt : Word32) :
    (packetOf op a amt).toNat = amt.toNat * 2 ^ 36 + a.toNat * 2 ^ 4 + op.toNat := by
  have h : (packetOf op a amt).toNat = ((amt.toNat <<< 32 ||| a.toNat) <<< 4) ||| op.toNat := by
    unfold packetOf
    rw [BitVec.toNat_append, BitVec.toNat_append]
  rw [h, ← Nat.shiftLeft_add_eq_or_of_lt a.isLt, ← Nat.shiftLeft_add_eq_or_of_lt op.isLt]
  simp only [Nat.shiftLeft_eq]
  ring

/-- The fields of a packet read back (R47). -/
theorem packetOf_op (op : OpCode) (a amt : Word32) : Packet.op (packetOf op a amt) = op := by
  apply BitVec.eq_of_toNat_eq
  have := op.isLt
  rw [Packet.op, BitVec.extractLsb'_toNat, packetOf_toNat]
  omega

theorem packetOf_a (op : OpCode) (a amt : Word32) : Packet.a (packetOf op a amt) = a := by
  apply BitVec.eq_of_toNat_eq
  have := op.isLt
  have := a.isLt
  rw [Packet.a, BitVec.extractLsb'_toNat, packetOf_toNat, Nat.shiftRight_eq_div_pow]
  omega

theorem packetOf_amt (op : OpCode) (a amt : Word32) : Packet.amt (packetOf op a amt) = amt := by
  apply BitVec.eq_of_toNat_eq
  have := op.isLt
  have := a.isLt
  have := amt.isLt
  rw [Packet.amt, BitVec.extractLsb'_toNat, packetOf_toNat, Nat.shiftRight_eq_div_pow]
  omega

end Sys2Proof

namespace Sys2Proof.Laws.RoundTrip

/-- Decoding the packet of an instruction gives the instruction back, its code and every operand word (R47, R50, R56). -/
def Statement (i : Instr) : Prop := decode (encode i) = i

/-- An instruction round-trips if decoding its code and operand words gives it. -/
theorem of_ports {i : Instr} (h : decodePorts i.opcode i.operandA i.operandAmt = i) : Statement i := by
  simpa [Statement, decode, encode, packetOf_op, packetOf_a, packetOf_amt] using h

theorem raw (a : Word32) : Statement (.raw a) := of_ports (by simp only [Instr.opcode]; rfl)
theorem fraw (a : Word32) : Statement (.fraw a) := of_ports (by simp only [Instr.opcode]; rfl)
theorem sgn (a : Word32) : Statement (.sgn a) := of_ports (by simp only [Instr.opcode]; rfl)
theorem expu (a : Word32) : Statement (.expu a) := of_ports (by simp only [Instr.opcode]; rfl)
theorem expm (a : Word32) : Statement (.expm a) := of_ports (by simp only [Instr.opcode]; rfl)
theorem expb (a : Word32) : Statement (.expb a) := of_ports (by simp only [Instr.opcode]; rfl)
theorem manm (a : Word32) : Statement (.manm a) := of_ports (by simp only [Instr.opcode]; rfl)
theorem sheu (a amt : Word32) : Statement (.sheu a amt) := of_ports (by simp only [Instr.opcode]; rfl)
theorem shed (a amt : Word32) : Statement (.shed a amt) := of_ports (by simp only [Instr.opcode]; rfl)
theorem shmu (a amt : Word32) : Statement (.shmu a amt) := of_ports (by simp only [Instr.opcode]; rfl)
theorem shmd (a amt : Word32) : Statement (.shmd a amt) := of_ports (by simp only [Instr.opcode]; rfl)
theorem illegal7 (a amt : Word32) : Statement (.illegal7 a amt) := of_ports (by simp only [Instr.opcode]; rfl)
theorem illegalC (a amt : Word32) : Statement (.illegalC a amt) := of_ports (by simp only [Instr.opcode]; rfl)
theorem illegalD (a amt : Word32) : Statement (.illegalD a amt) := of_ports (by simp only [Instr.opcode]; rfl)
theorem illegalE (a amt : Word32) : Statement (.illegalE a amt) := of_ports (by simp only [Instr.opcode]; rfl)
theorem illegalF (a amt : Word32) : Statement (.illegalF a amt) := of_ports (by simp only [Instr.opcode]; rfl)

end Sys2Proof.Laws.RoundTrip
end

