-- ==== Sys2Proof/Machine/Binary32.lean ====
section
/-! DEFINITION. The informative reading of a word as a binary32 value (spec/10_state.md R29). No operation depends on it; log entry 17. -/

namespace Sys2Proof.Machine

open Sys2Proof

/-- The value a word stands for (R29): a finite value is `(-1)^negative * significand * 2^scale`. -/
inductive Binary32 where
  | finite (negative : Bool) (significand : Nat) (scale : Int)
  | infinity (negative : Bool)
  | nan (quiet : Bool)
deriving DecidableEq, Repr

/-- R29. Exponent 1..254: `2^(exponent - 127) * (1 + mantissa / 2^23)`, that is `(2^23 + mantissa) * 2^(exponent - 150)`.
Exponent 0: `2^(-126) * mantissa / 2^23`, that is `mantissa * 2^(-149)`. Exponent 255: an infinity when the mantissa is 0,
else a NaN, quiet when `w[22] = 1`. -/
def binary32Value (w : Word32) : Binary32 :=
  let e := (exponentField w).toNat
  let m := (mantissaField w).toNat
  if e = 0 then .finite (signField w) m (-149)
  else if e = 255 then
    if m = 0 then .infinity (signField w) else .nan (w.getLsbD 22)
  else .finite (signField w) (2 ^ 23 + m) ((e : Int) - 150)

end Sys2Proof.Machine
end

