-- ==== Sys2Proof/Tests/Slice0.lean ====
section
/-! SUPPORT. The model's own tests. Expected values come from the spec: the rules' worked examples and corner cases, and 95_test_vectors.md, as each comment says. Then, for every statement with hypotheses, a witness that meets them. -/

namespace Sys2Proof.Tests

open Sys2Proof Sys2Proof.Machine

/-! ## Helpers -/

/-- A wanted sample of three port words. -/
def slot (op : OpCode) (a amt : Word32) : Inputs :=
  { op := op, a := a, amt := amt, valid := true, rst := false, clkEdge := true }

/-- The block of depth `k` after reset, with slots queued. -/
def queued (k : Nat) (slots : List Inputs) : State := { State.resetAt k with host := slots }

/-- The outputs after one step. -/
def outAfter (s : State) : Option Outputs :=
  match step s with
  | .next t => some (outputs t)
  | _ => none

/-- The stages after one step. -/
def stagesAfter (s : State) : Option (List Stage) :=
  match step s with
  | .next t => some t.stages
  | _ => none

/-- `(y_o, ill_o)` of one operation at depth 0. -/
def result (op : OpCode) (a amt : Word32) : Option Outputs := outAfter (queued 0 [slot op a amt])

/-- The outputs of the combinational block. -/
def out (y : Word32) (ill : Bool) : Option Outputs := some { valid := none, y := y, ill := ill }

/-! ## Well-formedness: every check of R56 refuses an ill-formed statement -/

theorem test_accepts_shift_with_amount : (Stmt.op .sheu 0x3F800000 (some (.decimal (-2147483648)))).wellFormed = true := by
  decide
theorem test_refuses_a_out_of_range : (Stmt.op .raw 0x100000000 none).check = .error .aOutOfRange := by decide
theorem test_refuses_decimal_amount_out_of_range :
    (Stmt.op .shmd 0 (some (.decimal 2147483648))).check = .error .amtOutOfRange := by decide
theorem test_refuses_hex_amount_out_of_range :
    (Stmt.op .shmd 0 (some (.hex 0x100000000))).check = .error .amtOutOfRange := by decide
theorem test_refuses_shift_without_amount : (Stmt.op .sheu 0 none).check = .error .amtMissing := by decide
theorem test_refuses_plain_with_amount : (Stmt.op .sgn 0 (some (.decimal 1))).check = .error .amtNotAllowed := by decide
theorem test_refuses_clrexp_with_amount : (Stmt.pseudo .clrexp 0 (some (.decimal 8))).check = .error .amtNotAllowed := by
  decide
theorem test_refuses_defined_code_as_illegal : (Stmt.illegal 0x8 0 (.hex 0)).check = .error .codeNotReserved := by decide
theorem test_refuses_unknown_mnemonic :
    readLine ['N', 'O', 'P', ' ', '1'] = .error .unknownMnemonic := by rfl
theorem test_refuses_number_wider_than_packet : decodeNumber (2 ^ 68) = .error .widerThanPacket := by decide

/-! ## Decoding: a word written out for every constructor (R47, R50; packets of 95_test_vectors.md) -/

theorem test_decode_raw : decode 0x000000003F8000000#68 = .raw 0x3F800000#32 := by decide
theorem test_decode_fraw : decode 0x000000007FC000011#68 = .fraw 0x7FC00001#32 := by decide
theorem test_decode_sgn : decode 0x00000000BF8000002#68 = .sgn 0xBF800000#32 := by decide
theorem test_decode_expu : decode 0x00000000C00000003#68 = .expu 0xC0000000#32 := by decide
theorem test_decode_expm : decode 0x00000000807FFFFF4#68 = .expm 0x807FFFFF#32 := by decide
theorem test_decode_expb : decode 0x000000003F0000005#68 = .expb 0x3F000000#32 := by decide
theorem test_decode_manm : decode 0x000000007FC000016#68 = .manm 0x7FC00001#32 := by decide
theorem test_decode_sheu : decode 0x000000073F8000008#68 = .sheu 0x3F800000#32 7#32 := by decide
theorem test_decode_shed : decode 0x800000003F8000009#68 = .shed 0x3F800000#32 0x80000000#32 := by decide
theorem test_decode_shmu : decode 0x000000163F800001A#68 = .shmu 0x3F800001#32 22#32 := by decide
theorem test_decode_shmd : decode 0x00000064FFFFFFFFB#68 = .shmd 0xFFFFFFFF#32 100#32 := by decide
theorem test_decode_illegal7 : decode 0x000000003F8000007#68 = .illegal7 0x3F800000#32 0#32 := by decide
theorem test_decode_illegalC : decode 0x000000053F800000C#68 = .illegalC 0x3F800000#32 5#32 := by decide
theorem test_decode_illegalD : decode 0xFFFFFFFFFFFFFFFFD#68 = .illegalD 0xFFFFFFFF#32 0xFFFFFFFF#32 := by decide
theorem test_decode_illegalE : decode 0x0000000000000000E#68 = .illegalE 0#32 0#32 := by decide
theorem test_decode_illegalF : decode 0xFFFFFFFF7FC00001F#68 = .illegalF 0x7FC00001#32 0xFFFFFFFF#32 := by decide
/-- The example packet of R47, encoded. -/
theorem test_encode_rule_example : encode (.sheu 0x3F800000#32 7#32) = 0x000000073F8000008#68 := by decide
/-- A table word places its code on `op_i` and runs as the first operation after reset. -/
theorem test_table_word_runs :
    decodeTableWord 8 0x5 = some (.expb 0#32) ∧ outAfter (State.reset.withFetchWord 8 0x5) = out 0xFFFFFF81#32 false := by
  decide

/-! ## Results (the rules' worked examples and corner cases; 95_test_vectors.md sections 1 and 2) -/

theorem test_raw_keeps_negative_zero : result 0x0#4 0x80000000#32 0#32 = out 0x80000000#32 false := by decide
theorem test_raw_keeps_signaling_nan : result 0x0#4 0x7F800001#32 5#32 = out 0x7F800001#32 false := by decide
theorem test_fraw_keeps_nan_payload : result 0x1#4 0x7FC00001#32 0#32 = out 0x7FC00001#32 false := by decide
theorem test_sgn_negative_two : result 0x2#4 0xC0000000#32 0#32 = out 0x00000001#32 false := by decide
theorem test_sgn_ignores_low_bits : result 0x2#4 0x7FFFFFFF#32 0#32 = out 0x00000000#32 false := by decide
theorem test_expu_one : result 0x3#4 0x3F800000#32 0#32 = out 0x0000007F#32 false := by decide
theorem test_expu_ignores_sign_and_mantissa : result 0x3#4 0x807FFFFF#32 0#32 = out 0x00000000#32 false := by decide
theorem test_expm_in_place : result 0x4#4 0xC0000000#32 0#32 = out 0x40000000#32 false := by decide
theorem test_expm_all_ones : result 0x4#4 0xFFFFFFFF#32 0#32 = out 0x7F800000#32 false := by decide
theorem test_expb_one_half : result 0x5#4 0x3F000000#32 0#32 = out 0xFFFFFFFF#32 false := by decide
theorem test_expb_infinity : result 0x5#4 0x7F800000#32 0#32 = out 0x00000080#32 false := by decide
theorem test_manm_one_and_a_half : result 0x6#4 0x3FC00000#32 0#32 = out 0x00400000#32 false := by decide
theorem test_manm_all_ones : result 0x6#4 0xFFFFFFFF#32 0#32 = out 0x007FFFFF#32 false := by decide
theorem test_sheu_no_carry_into_sign : result 0x8#4 0xC0000000#32 1#32 = out 0x80000000#32 false := by decide
theorem test_sheu_least_amount : result 0x8#4 0x3F800000#32 0x80000000#32 = out 0x00000000#32 false := by decide
theorem test_shed_keeps_rest : result 0x9#4 0xFFFFFFFF#32 4#32 = out 0x87FFFFFF#32 false := by decide
theorem test_shed_negative_shifts_up : result 0x9#4 0x3F800000#32 0xFFFFFFFF#32 = out 0x7F000000#32 false := by decide
theorem test_shmu_no_carry_into_exponent : result 0xA#4 0x3FC00000#32 1#32 = out 0x3F800000#32 false := by decide
theorem test_shmu_bit0_to_bit22 : result 0xA#4 0x3F800001#32 22#32 = out 0x3FC00000#32 false := by decide
theorem test_shmd_to_bit0 : result 0xB#4 0x3FC00000#32 22#32 = out 0x3F800001#32 false := by decide
theorem test_shmd_clamped : result 0xB#4 0xFFFFFFFF#32 100#32 = out 0xFF800000#32 false := by decide
theorem test_illegal7_outputs : result 0x7#4 0x3F800000#32 0#32 = out 0x00000000#32 true := by decide
theorem test_illegalC_outputs : result 0xC#4 0x3F800000#32 5#32 = out 0x00000000#32 true := by decide
theorem test_illegalD_outputs : result 0xD#4 0xFFFFFFFF#32 0xFFFFFFFF#32 = out 0x00000000#32 true := by decide
theorem test_illegalE_outputs : result 0xE#4 0x00000000#32 0#32 = out 0x00000000#32 true := by decide
theorem test_illegalF_outputs : result 0xF#4 0x7FC00001#32 0xFFFFFFFF#32 = out 0x00000000#32 true := by decide

/-! ## The pipeline (95_test_vectors.md P6, each edge as one step) -/

/-- P6 after edge 3, with the slots of edges 4 and 7 queued. -/
def p6AfterEdge3 : State :=
  { inp := slot 0x8#4 0x3F800000#32 1#32
    comb := { y := 0x7F000000#32, ill := false }
    stages := [{ v := true, y := 0x7F000000#32, ill := false }, { v := true, y := 0x0000007F#32, ill := false }]
    host := [slot 0x7#4 0#32 0#32, { slot 0x0#4 0#32 0#32 with rst := true }] }

/-- Edge 2: the sample enters S1. -/
theorem test_p6_edge2 :
    stagesAfter (queued 2 [slot 0x3#4 0x3F800000#32 0#32]) =
      some [{ v := true, y := 0x0000007F#32, ill := false }, { v := false, y := 0#32, ill := false }] := by decide
/-- Edge 4: a reserved code enters S1, and SHEU's result is on the outputs. -/
theorem test_p6_edge4 :
    stagesAfter p6AfterEdge3 =
      some [{ v := true, y := 0#32, ill := true }, { v := true, y := 0x7F000000#32, ill := false }] ∧
    outAfter p6AfterEdge3 = some { valid := some true, y := 0x7F000000#32, ill := false } := by decide
/-- Edge 7: an edge with `rst_i = 1` clears the stages. -/
theorem test_p6_edge7 :
    outAfter { p6AfterEdge3 with host := p6AfterEdge3.host.tail } =
      some { valid := some false, y := 0#32, ill := false } := by decide
/-- P4 step 5: in the strict view the reserved code is a fault. -/
theorem test_strict_fault :
    (match strictStep (queued 0 [slot 0x7#4 0x7F800000#32 0#32]) with
      | .fault f => f = .illegalOp 0x7#4 | _ => False) := by
  show Fault.illegalOp 0x7#4 = _
  rfl

/-! ## Bytes, readings, values -/

theorem test_bytes_little_endian : wordToBytes 0x12345678#32 = [0x78#8, 0x56#8, 0x34#8, 0x12#8] := by decide
/-- The example packet of R47, in the byte order of R37. -/
theorem test_packet_bytes_little_endian :
    encodeBytes (.sheu 0x3F800000#32 7#32) = [0x08#8, 0x00#8, 0x00#8, 0xF8#8, 0x73#8, 0x00#8, 0x00#8, 0x00#8, 0x00#8] := by
  decide
/-- `op_i` and a one-bit port are one byte; a value that does not fit the port is refused. -/
theorem test_narrow_port_bytes :
    toBytes 0xB#4 = [0x0B#8] ∧ toBytes 1#1 = [0x01#8] ∧ ofBytes 4 [0x0B#8] = some 0xB#4 ∧ ofBytes 4 [0x1B#8] = none := by
  decide
theorem test_interpret_true_exponent : interpret 0x5#4 0xFFFFFF81#32 = some (.signed (-127)) := by decide
/-- R29 with the names of 93_implementation_defined.md K2 and K3: 1.0, a signaling NaN, minus infinity, a subnormal. -/
theorem test_binary32_values :
    binary32Value 0x3F800000#32 = .finite false (2 ^ 23) (-23) ∧ binary32Value 0x7F800001#32 = .nan false ∧
    binary32Value 0xFF800000#32 = .infinity true ∧ binary32Value 0x00000001#32 = .finite false 1 (-149) := by decide

/-! ## Assembler (95_test_vectors.md sections 2.3, 2.5, 2.6; R57) -/

/-- A line of text with a comment, in lower case: `sheu 0x3F800000, -1 ; x`. -/
theorem test_assemble_line :
    assembleLine ['s', 'h', 'e', 'u', ' ', '0', 'x', '3', 'F', '8', '0', '0', '0', '0', '0', ',', ' ', '-', '1', ' ', ';', 'x'] =
      .ok (some 0xFFFFFFFF3F8000008#68) := by rfl
/-- `shiftMantissa 0x3FC00000, 22, down` is `SHMD 0x3FC00000, 22` (R57). -/
theorem test_assemble_entry_point :
    assembleLine (['s', 'h', 'i', 'f', 't', 'M', 'a', 'n', 't', 'i', 's', 's', 'a', ' '] ++
      ['0', 'x', '3', 'F', 'C', '0', '0', '0', '0', '0', ',', ' ', '2', '2', ',', ' ', 'd', 'o', 'w', 'n']) =
      .ok (some 0x000000163FC00000B#68) := by rfl
/-- A leading `+` is no sign of an amount (log entry 13). -/
theorem test_refuses_plus_sign : readAmt ['+', '1'] = none ∧ readAmt ['-', '1'] = some (.decimal (-1)) := by decide
theorem test_assemble_clrman : assemble (.pseudo .clrman 0xFFFFFFFF none) = .ok 0x00000017FFFFFFFFA#68 := by rfl
/-- `.illegal 0xC, 0x3F800000, 0x00000005` (R59). -/
theorem test_disassemble_reserved :
    disassembleLine 0x000000053F800000C#68 =
      ['.', 'i', 'l', 'l', 'e', 'g', 'a', 'l', ' ', '0', 'x', 'C', ',', ' ', '0', 'x', '3', 'F', '8', '0', '0', '0', '0', '0',
       ',', ' ', '0', 'x', '0', '0', '0', '0', '0', '0', '0', '5'] := by decide

/-! ## Witnesses: for each statement with hypotheses, values that meet them together -/

theorem witness_AmountResolution :
    0 ≤ (0x00000000#32).toInt ∧ 0 ≤ (0x7FFFFFFF#32).toInt ∧ (0xFFFFFFFF#32).toInt < 0 ∧ (0x80000000#32).toInt < 0 := by
  decide
theorem witness_LaneShiftBits :
    22 < 32 ∧ (0x7F800000#32).getLsbD 22 = false ∧ 31 < 32 ∧ (0x7F800000#32).getLsbD 31 = false ∧
    23 < 32 ∧ (0x7F800000#32).getLsbD 23 = true ∧ 30 < 32 ∧ (0x7F800000#32).getLsbD 30 = true := by decide
theorem witness_ExponentShiftFieldForm : 0 ≤ (0#32).toInt ∧ 0 ≤ (8#32).toInt ∧ (0xFFFFFFF8#32).toInt < 0 := by decide
theorem witness_MantissaShiftFieldForm : 0 ≤ (0#32).toInt ∧ 0 ≤ (23#32).toInt ∧ (0xFFFFFFE9#32).toInt < 0 := by decide
theorem witness_MutationsLeaveOtherFields :
    (∃ op : OpCode, op = 0x8#4 ∨ op = 0x9#4) ∧ (∃ f : OpCode, f = 0x2#4 ∨ f = 0x6#4) ∧
    (∃ op : OpCode, op = 0xA#4 ∨ op = 0xB#4) ∧ (∃ f : OpCode, f = 0x2#4 ∨ f = 0x3#4 ∨ f = 0x4#4 ∨ f = 0x5#4) :=
  ⟨⟨0x9#4, by decide⟩, ⟨0x6#4, by decide⟩, ⟨0xB#4, by decide⟩, ⟨0x5#4, by decide⟩⟩
theorem witness_ZeroShiftIsIdentity :
    ∃ (amt : Word32) (op : OpCode), amt.toInt = 0 ∧ (op = 0x8#4 ∨ op = 0x9#4 ∨ op = 0xA#4 ∨ op = 0xB#4) :=
  ⟨0#32, 0xB#4, by decide⟩
theorem witness_ClampAndSignLaws :
    8 ≤ (8#32).toInt ∧ 8 ≤ (0x7FFFFFFF#32).toInt ∧ 23 ≤ (23#32).toInt ∧ (0xFFFFFFFF#32).toInt = -(1#32).toInt ∧
    (0x80000001#32).toInt = -(0x7FFFFFFF#32).toInt := by decide
theorem witness_FullShiftEmptiesLane :
    8 ≤ (8#32).toInt.natAbs ∧ 8 ≤ (0x80000000#32).toInt.natAbs ∧ 23 ≤ (0xFFFFFFE9#32).toInt.natAbs := by decide
theorem witness_ReservedCodesTakeIllegalOp : ∃ o : Outputs, o.ill = true :=
  ⟨{ valid := some true, y := 0#32, ill := true }, rfl⟩
/-- A reserved code that is wanted, at depth 0 and at depth 2; and one that is not wanted (`valid_i = 0`). -/
theorem witness_StrictRunFaultsOnReservedCode :
    issuesReserved 0 (nextInputs (queued 0 [slot 0x7#4 0#32 0#32])) = true ∧
    issuesReserved 2 (nextInputs p6AfterEdge3) = true ∧
    issuesReserved 2 { slot 0xF#4 0#32 0#32 with valid := false } = false := by decide
theorem witness_EncodeDecodeIsCanonical :
    Packet.op 0xFFFFFFFF3F8000006#68 = 0x6#4 ∧ (0x6#4).toNat ≤ 6 ∧
    Packet.op 0xFFFFFFFF3F8000007#68 = 0x7#4 ∧ 7 ≤ (0x7#4).toNat := by decide
/-- Equal low 36 bits with different amounts: a reserved code, code 0x6, and a shift. -/
theorem witness_AmountBitsDoNotSelect :
    (0x000000013F8000007#68).extractLsb' 0 36 = (0x000000023F8000007#68).extractLsb' 0 36 ∧
    (0x000000013F8000006#68).extractLsb' 0 36 = (0x000000023F8000006#68).extractLsb' 0 36 ∧
    (0x000000013F800000C#68).extractLsb' 0 36 = (0x000000023F800000C#68).extractLsb' 0 36 ∧
    (0x000000013F800000B#68).extractLsb' 0 36 = (0x000000023F800000B#68).extractLsb' 0 36 := by decide
theorem witness_OpcodeBitsSelectMutation :
    (0xB#4).getLsbD 3 = true ∧ (0xB#4).getLsbD 2 = false ∧ (0xC#4).getLsbD 3 = true ∧ (0xC#4).getLsbD 2 = true := by decide
theorem witness_StepRunsDecodedOperation :
    (∃ d rest, p6AfterEdge3.host = d :: rest) ∧ State.reset.host = [] := ⟨⟨_, _, rfl⟩, rfl⟩
/-- An instruction at depth 2 in a slot with an edge and no reset, S1 present; and one in a slot without an edge. -/
theorem witness_EveryInstructionFrame :
    (∃ t, exec (.shmd 0x3FC00000#32 1#32) p6AfterEdge3 = .next t ∧ p6AfterEdge3.inp.clkEdge = true ∧
      p6AfterEdge3.inp.rst = false ∧ ∃ x, t.stages.head? = some x) ∧
    (∃ t, exec (.raw 5#32) (State.resetAt 2) = .next t ∧ (State.resetAt 2).inp.clkEdge = false) :=
  ⟨⟨_, rfl, rfl, rfl, _, rfl⟩, ⟨_, rfl, rfl⟩⟩
/-- An edge that samples and an edge that resets, at depth 2, with a stage to move. -/
theorem witness_ClockEdgeMovesStages :
    (nextInputs p6AfterEdge3).clkEdge = true ∧ (nextInputs p6AfterEdge3).rst = false ∧
    0 < p6AfterEdge3.stages.length ∧ 0 + 1 < p6AfterEdge3.stages.length ∧
    (nextInputs { p6AfterEdge3 with host := p6AfterEdge3.host.tail }).clkEdge = true ∧
    (nextInputs { p6AfterEdge3 with host := p6AfterEdge3.host.tail }).rst = true := by decide
theorem witness_StoppedClockHoldsStages :
    (nextInputs { p6AfterEdge3 with host := [] }).clkEdge = false ∧ 0 < State.depth { p6AfterEdge3 with host := [] } := by
  decide
/-- Depth 0; a depth above 0; and outputs with `valid_o = 0` after a step. -/
theorem witness_OutputsFollowInputsOrLastStage :
    State.reset.depth = 0 ∧ (stagesAfter p6AfterEdge3).map (·.length) = some 2 ∧
    (outAfter (queued 2 [slot 0x3#4 0x3F800000#32 0#32])).map (·.valid) = some (some false) := by decide
/-- A reset edge at depth 2 with an idle slot, an edge and another idle slot after it, so that four slots, one of them past the
end of the queue, hold one edge; and `rst_i = 1` without an edge. -/
def resetThenIdle : State :=
  { p6AfterEdge3 with
    host := [{ slot 0x0#4 0#32 0#32 with rst := true }, { slot 0x3#4 5#32 0#32 with clkEdge := false },
      slot 0x7#4 0#32 0#32, { slot 0x8#4 1#32 1#32 with clkEdge := false }] }
theorem witness_ResetEdgeClears :
    (nextInputs resetThenIdle).rst = true ∧ (nextInputs resetThenIdle).clkEdge = true ∧
    ((resetThenIdle.host.tail.take 4).filter (·.clkEdge)).length = 1 ∧ 1 < resetThenIdle.depth ∧
    (nextInputs (queued 2 [{ slot 0x0#4 0#32 0#32 with rst := true, clkEdge := false }])).rst = true ∧
    (nextInputs (queued 2 [{ slot 0x0#4 0#32 0#32 with rst := true, clkEdge := false }])).clkEdge = false := by decide
theorem witness_ResetStateValues : (∃ x, x ∈ (State.resetAt 2).stages) ∧ 0 < 2 ∧ (0 : Nat) = 0 :=
  ⟨⟨Stage.cleared, by decide⟩, by decide, rfl⟩
theorem witness_PowerUpThenResetEdgeLaunches : Inputs.resetEdge { slot 0x0#4 0#32 0#32 with rst := true } := ⟨rfl, rfl⟩
theorem witness_StepKeepsDepth : ∃ t, step p6AfterEdge3 = .next t := ⟨_, rfl⟩
/-- Two states of different history, stages and wires with the same next slot, at depth 2 and at depth 0. -/
theorem witness_ResultDependsOnInputsOnly :
    nextInputs p6AfterEdge3 = nextInputs (queued 2 [slot 0x7#4 0#32 0#32]) ∧ p6AfterEdge3 ≠ queued 2 [slot 0x7#4 0#32 0#32] ∧
    (nextInputs p6AfterEdge3).clkEdge = true ∧ 0 < p6AfterEdge3.depth ∧ 0 < (queued 2 [slot 0x7#4 0#32 0#32]).depth ∧
    (queued 0 [slot 0x1#4 5#32 0#32]).depth = 0 := by decide
/-- A state in mid-run, with two valid stages, meets the invariant and takes a step. -/
theorem witness_StepKeepsInvariant : p6AfterEdge3.inv ∧ ∃ t, step p6AfterEdge3 = .next t := by
  refine ⟨⟨rfl, ?_⟩, _, rfl⟩
  intro x hx
  simp only [p6AfterEdge3, List.mem_cons, List.not_mem_nil, or_false] at hx
  rcases hx with rfl | rfl <;> intro h <;> cases h
/-- A sample with a slot without an edge and a sampling edge after it, at depth 2; and a sample with a reset edge after it. -/
theorem witness_SampleLatencyAndDiscard :
    (∃ d later rest, (queued 2 [slot 0x3#4 1#32 0#32, { slot 0x0#4 0#32 0#32 with clkEdge := false },
        slot 0x8#4 1#32 1#32]).host = d :: (later ++ rest) ∧ d.sampled ∧
      (∀ i ∈ later, i.clkEdge = true → i.rst = false) ∧ (later.filter (·.clkEdge)).length + 1 = 2) ∧
    (∃ d later rest, p6AfterEdge3.host = d :: (later ++ rest) ∧ d.sampled ∧ (∃ i ∈ later, i.resetEdge) ∧
      (later.filter (·.clkEdge)).length + 1 ≤ p6AfterEdge3.depth) := by
  refine ⟨⟨slot 0x3#4 1#32 0#32, [{ slot 0x0#4 0#32 0#32 with clkEdge := false }, slot 0x8#4 1#32 1#32], [], rfl,
      ⟨rfl, rfl⟩, by decide, rfl⟩,
    ⟨slot 0x7#4 0#32 0#32, [{ slot 0x0#4 0#32 0#32 with rst := true }], [], rfl, ⟨rfl, rfl⟩,
      ⟨_, List.mem_singleton.mpr rfl, rfl, rfl⟩, by decide⟩⟩
/-- Two samples at depth 1; the first and the last of them. -/
theorem witness_ResultsLeaveInOrder :
    ∃ samples rest, (queued 1 [slot 0x3#4 1#32 0#32, slot 0x6#4 2#32 0#32]).host = samples ++ rest ∧
      (∀ i ∈ samples, i.sampled) ∧ 0 < (queued 1 [slot 0x3#4 1#32 0#32, slot 0x6#4 2#32 0#32]).depth ∧
      ∃ d, samples[1]? = some d ∧ 1 + 1 ≤ samples.length := by
  refine ⟨[slot 0x3#4 1#32 0#32, slot 0x6#4 2#32 0#32], [], rfl, ?_, by decide, _, rfl, by decide⟩
  intro i hi
  simp only [List.mem_cons, List.not_mem_nil, or_false] at hi
  rcases hi with rfl | rfl <;> exact ⟨rfl, rfl⟩
/-- A safe state with a valid result in flight and a wanted sample queued, at depth 1. -/
theorem witness_SafeRunsStaySafe :
    State.safe { queued 1 [slot 0x8#4 1#32 1#32] with stages := [{ v := true, y := 5#32, ill := false }] } := by
  refine ⟨⟨fun _ => rfl, ?_⟩, ?_⟩
  · intro x hx
    simp only [List.mem_cons, List.not_mem_nil, or_false] at hx
    subst hx
    exact fun _ => rfl
  · unfold State.cleanQueue
    decide
/-- Bytes that are no packet for each reason, and bytes of a packet at the greatest last byte. -/
theorem witness_PacketBytesAreLittleEndian :
    ([] : List Byte).length ≠ 9 ∧ (toBytes (BitVec.allOnes 68)).length = 9 ∧ (toBytes (BitVec.allOnes 68))[8]? = some 0x0F#8 ∧
    (0x0F#8).toNat < 16 ∧ (toBytes (BitVec.allOnes 72))[8]? = some 0xFF#8 ∧ (toBytes (BitVec.allOnes 72)).length = 9 ∧
    16 ≤ (0xFF#8).toNat ∧ decodeBytes (toBytes (BitVec.allOnes 72)) = .error .widerThanPacket := by decide
/-- Each refusal and each form at the ends of R55's ranges, on both sides. -/
theorem witness_AssemblerRefusals :
    (0xFFFFFFFF < 0x100000000 ∧ 0xFFFFFFFF ≤ 0xFFFFFFFF) ∧
    Mnemonic.shmd ∈ [Mnemonic.sheu, .shed, .shmu, .shmd] ∧ Mnemonic.manm ∉ [Mnemonic.sheu, .shed, .shmu, .shmd] ∧
    Pseudo.clrman ∈ [Pseudo.clrexp, .clrman] ∧ 0x8 ∉ [0x7, 0xC, 0xD, 0xE, 0xF] ∧ 0xF ∈ [0x7, 0xC, 0xD, 0xE, 0xF] ∧
    AmtLiteral.inRange (.decimal 2147483647) = true ∧ AmtLiteral.inRange (.decimal 2147483648) = false ∧
    AmtLiteral.inRange (.decimal (-2147483648)) = true ∧ AmtLiteral.inRange (.decimal (-2147483649)) = false ∧
    AmtLiteral.inRange (.hex 0xFFFFFFFF) = true ∧ AmtLiteral.inRange (.hex 0x100000000) = false := by decide

end Sys2Proof.Tests
end

section
/-! SUPPORT. The state after reset (spec/00_scope.md R7; spec/10_state.md R33, R96). -/

namespace Sys2Proof.Machine

open Sys2Proof

@[simp] theorem resetAt_depth (k : Nat) : (State.resetAt k).depth = k := List.length_replicate

theorem resetAt_mem_stages {k : Nat} {x : Stage} (h : x ∈ (State.resetAt k).stages) : x = Stage.cleared :=
  List.eq_of_mem_replicate h

/-- With any stage at all, the last one after reset is cleared. -/
theorem resetAt_getLast? {k : Nat} (h : 0 < k) : (State.resetAt k).stages.getLast? = some Stage.cleared := by
  rw [resetAt_stages, List.getLast?_replicate, if_neg h.ne']

/-- The wires chosen for reset are F of the input levels chosen for it (log entry 5). -/
theorem resetAt_combFollows (k : Nat) : (State.resetAt k).combFollows := rfl

/-- Settles O44: above depth 0 the outputs are the last stage, which is cleared; at depth 0 they are F's wires, which follow
the inputs. -/
theorem resetStateValues : Obligations.ResetStateValues := by
  refine ⟨rfl, fun k => ⟨resetAt_depth k, fun _ => resetAt_mem_stages, fun hk => ?_, fun hk => ?_⟩⟩
  · exact outputs_last (resetAt_getLast? hk)
  · rw [outputs_depth_zero ((resetAt_depth k).trans hk), resetAt_combFollows k]

end Sys2Proof.Machine
end

section
/-! SUPPORT. The masks and the fields of a word (spec/10_state.md R19, R21, R28). -/

namespace Sys2Proof.Machine

open Sys2Proof

/-- Settles O34: the constants are literal, so each clause is a closed fact. -/
theorem masksAndConstants : Obligations.MasksAndConstants :=
  ⟨rfl, rfl, rfl, rfl, rfl, rfl, rfl, by decide, by decide, by decide, by decide, by decide, by decide⟩

theorem boolWord_getLsbD (b : Bool) (i : Nat) : (boolWord b).getLsbD i = (decide (i = 0) && b) := by
  cases b <;> simp [boolWord]

/-- A composed word bit by bit: each range of bits comes from one field. -/
theorem composeWord_getLsbD (sign : Bool) (exponent : BitVec 8) (mantissa : BitVec 23) {i : Nat} (h : i < 32) :
    (composeWord sign exponent mantissa).getLsbD i =
      if i < 23 then mantissa.getLsbD i else if i < 31 then exponent.getLsbD (i - 23) else sign := by
  rw [composeWord, BitVec.getLsbD_or, BitVec.getLsbD_or, BitVec.getLsbD_shiftLeft, BitVec.getLsbD_shiftLeft,
    BitVec.getLsbD_setWidth, BitVec.getLsbD_setWidth, boolWord_getLsbD]
  simp only [Config.signOffset, Config.expOffset]
  split
  · have : i < 31 := by omega
    simp [*]
  · have : mantissa.getLsbD i = false := BitVec.getLsbD_of_ge _ _ (by omega)
    split
    · have : i - 23 < 32 := by omega
      simp [*]
    · have : exponent.getLsbD (i - 23) = false := BitVec.getLsbD_of_ge _ _ (by omega)
      have : i - 31 = 0 := by omega
      simp [*]

/-- Settles O35: every bit of the word lies in one field, from which composing takes it back. -/
theorem fieldsRecompose : Obligations.FieldsRecompose := by
  intro w
  refine BitVec.eq_of_getLsbD_eq fun i hi => ?_
  rw [composeWord_getLsbD _ _ _ hi]
  split
  · simp [*]
  · split
    · have : i - 23 < 8 := by omega
      have : 23 + (i - 23) = i := by omega
      simp [*]
    · have : i = 31 := by omega
      rw [this]

end Sys2Proof.Machine
end

section
/-! SUPPORT. The flag that F drives (spec/60_exceptions.md R84, R85). -/

namespace Sys2Proof.Machine

open Sys2Proof

/-- R84: a reserved code raises IllegalOp, whatever the operand words. -/
theorem dispatchF_of_reserved {op : OpCode} (h : op.reserved = true) (a amt : Word32) :
    dispatchF op a amt = raiseIllegalOp op := by
  simp only [OpCode.reserved, Bool.or_eq_true, decide_eq_true_eq] at h
  obtain (((rfl | rfl) | rfl) | rfl) | rfl := h <;> rfl

/-- R85: the flag is set by the reserved codes and by no other. -/
theorem dispatchF_ill (op : OpCode) (a amt : Word32) : (dispatchF op a amt).ill = op.reserved := by
  obtain ⟨⟨n, hn⟩⟩ := op
  interval_cases n <;> rfl

/-- The word is 0 wherever F sets the flag. -/
theorem dispatchF_y_of_ill {op : OpCode} {a amt : Word32} (h : (dispatchF op a amt).ill = true) :
    (dispatchF op a amt).y = 0x00000000#32 := by
  rw [dispatchF_ill] at h
  rw [dispatchF_of_reserved h]
  rfl

theorem issuesReserved_of_not_reserved {i : Inputs} (h : i.op.reserved = false) (depth : Nat) :
    issuesReserved depth i = false := by simp [issuesReserved, h]

end Sys2Proof.Machine
end

section
/-! SUPPORT. Where each stage and each output comes from at a clock edge (spec/10_state.md R17, R31, R32). -/

namespace Sys2Proof.Machine

open Sys2Proof

theorem shiftIn_getElem?_zero (x : Stage) {st : List Stage} (h : 0 < st.length) : (shiftIn x st)[0]? = some x := by
  simp [shiftIn, h]

theorem shiftIn_getElem?_succ (x : Stage) {st : List Stage} {j : Nat} (h : j + 1 < st.length) :
    (shiftIn x st)[j + 1]? = st[j]? := by
  simp [shiftIn, h]

/-- At depth 0 nothing enters S1, and at a greater depth the new stage does. -/
theorem eq_of_head?_shiftIn {x y : Stage} {st : List Stage} (h : (shiftIn x st).head? = some y) : y = x := by
  cases st with
  | nil => cases h
  | cons z zs => exact (Option.some.inj h).symm

/-- A rising edge samples or resets. -/
theorem sampled_of_edge {i : Inputs} (he : i.clkEdge = true) (hr : ¬i.resetEdge) : i.sampled :=
  ⟨he, Bool.eq_false_iff.mpr fun h => hr ⟨he, h⟩⟩

theorem outputs_of_pos {s : State} (h : 0 < s.stages.length) :
    outputs s =
      { valid := some (s.stages[s.stages.length - 1]'(Nat.sub_lt h Nat.one_pos)).v
        y := (s.stages[s.stages.length - 1]'(Nat.sub_lt h Nat.one_pos)).y
        ill := (s.stages[s.stages.length - 1]'(Nat.sub_lt h Nat.one_pos)).ill } :=
  outputs_last (by rw [List.getLast?_eq_getElem?, List.getElem?_eq_getElem])

theorem readOutputs_of_not_valid {o : Outputs} (h : o.valid = some false) : readOutputs o = .noResult := by
  simp [readOutputs, h]

end Sys2Proof.Machine
end

section
/-! SUPPORT. The step as a total function, and runs as its iterates: nothing stops the block (spec/10_state.md R18). -/

namespace Sys2Proof.Machine

open Sys2Proof

/-- The one next state that a step answers. -/
def State.successor (s : State) : State := deliver (dispatchInputs (nextInputs s)) (present s)

theorem step_eq_successor (s : State) : step s = .next s.successor := step_eq s

theorem eq_successor_of_step {s t : State} (h : step s = .next t) : t = s.successor := step_inversion h

@[simp] theorem successor_inp (s : State) : s.successor.inp = nextInputs s := rfl
@[simp] theorem successor_comb (s : State) : s.successor.comb = dispatchInputs (nextInputs s) := rfl
@[simp] theorem successor_stages (s : State) :
    s.successor.stages = clockStages (nextInputs s) (dispatchInputs (nextInputs s)) s.stages := rfl
@[simp] theorem successor_host (s : State) : s.successor.host = s.host.tail := rfl
@[simp] theorem successor_depth (s : State) : s.successor.depth = s.depth := clockStages_length _ _ _

theorem iterate_successor_depth (n : Nat) (s : State) : (State.successor^[n] s).depth = s.depth := by
  induction n generalizing s with
  | zero => rfl
  | succ n ih => rw [Function.iterate_succ_apply, ih, successor_depth]

theorem run_succ_of_step {M : Host.Core} {s s' : M.State} (h : M.step s = .next s') (n : Nat) :
    M.run (n + 1) s = M.run n s' := by
  simp only [Host.Core.run, h]

theorem run_succ (n : Nat) (s : State) : Host.Core.run core (n + 1) s = Host.Core.run core n s.successor :=
  run_succ_of_step (M := core) (step_eq_successor s) n

theorem run_eq_iterate (n : Nat) (s : State) : Host.Core.run core n s = .next (State.successor^[n] s) := by
  induction n generalizing s with
  | zero => rfl
  | succ n ih => exact (run_succ n s).trans (ih s.successor)

/-- Settles O46: the clock edge moves or clears stages and makes none. -/
theorem stepKeepsDepth : Obligations.StepKeepsDepth := by
  intro s t h
  rw [eq_successor_of_step h, successor_depth]

/-- Settles O47: a run of any length is an iterate of the total step. -/
theorem blockNeverStops : Obligations.BlockNeverStops :=
  fun n s => ⟨_, run_eq_iterate n s⟩

end Sys2Proof.Machine
end

section
/-! SUPPORT. One step: the operation it runs, its frame, the clock edge and the outputs (spec/10_state.md R17, R31, R32). -/

namespace Sys2Proof.Machine

open Sys2Proof

theorem decode_packetOf (op : OpCode) (a amt : Word32) : decode (packetOf op a amt) = decodePorts op a amt := by
  rw [decode, packetOf_op, packetOf_a, packetOf_amt]

theorem present_cons {s : State} {d : Inputs} {rest : List Inputs} (h : s.host = d :: rest) :
    present s = { s with inp := d, host := rest } := by
  simp [present, nextInputs_cons h, h]

theorem present_nil {s : State} (h : s.host = []) : present s = { s with inp := { s.inp with clkEdge := false } } := by
  simp [present, nextInputs_nil h, h]

/-- Settles O37: decoding the packet of the ports is decoding the ports, which a step does in the slot it presents. -/
theorem stepRunsDecodedOperation : Obligations.StepRunsDecodedOperation := by
  refine fun s => ⟨fun d rest h => ?_, fun h => ?_⟩
  · rw [decode_packetOf, step, fetch, instrOfInputs, present_cons h, nextInputs_cons h]
  · rw [decode_packetOf, step, fetch, instrOfInputs, present_nil h, nextInputs_nil h]

/-- Settles O39: every instruction delivers one result (`exec_eq`), and delivering changes the wires and the stages alone. -/
theorem everyInstructionFrame : Obligations.EveryInstructionFrame := by
  intro i s t h
  rw [exec_eq] at h
  obtain rfl := Host.Outcome.next.inj h
  refine ⟨rfl, rfl, clockStages_length _ _ _, fun he => clockStages_idle he _ _, fun he hr x hx => ?_⟩
  rw [deliver_stages, clockStages_sample ⟨he, hr⟩] at hx
  obtain rfl := eq_of_head?_shiftIn hx
  exact ⟨rfl, rfl, rfl⟩

theorem successor_stages_of_resetEdge {s : State} (h : (nextInputs s).resetEdge) :
    s.successor.stages = List.replicate s.depth Stage.cleared := by
  rw [successor_stages, clockStages_reset h, State.depth]

theorem successor_stages_of_sampled {s : State} (h : (nextInputs s).sampled) :
    s.successor.stages = shiftIn (sampleOf (nextInputs s)) s.stages := by
  rw [successor_stages, clockStages_sample h, sampleOf]

theorem successor_stages_of_idle {s : State} (h : (nextInputs s).clkEdge = false) :
    s.successor.stages = s.stages := by
  rw [successor_stages, clockStages_idle h]

/-- Settles O40: a reset edge clears the stages, and a sampling edge shifts the sample in. -/
theorem clockEdgeMovesStages : Obligations.ClockEdgeMovesStages := by
  intro s he
  refine ⟨_, step_eq_successor s, successor_depth s, fun hr x hx => ?_, fun hr => ?_⟩
  · rw [successor_stages_of_resetEdge ⟨he, hr⟩] at hx
    exact List.eq_of_mem_replicate hx
  · rw [successor_stages_of_sampled ⟨he, hr⟩]
    exact ⟨shiftIn_getElem?_zero _, fun _ => shiftIn_getElem?_succ _⟩

/-- Settles O42: the wires of the next state carry F of its inputs, and the last stage is what `outputs` reads above depth 0. -/
theorem outputsFollowInputsOrLastStage : Obligations.OutputsFollowInputsOrLastStage := by
  intro s
  refine ⟨_, step_eq_successor s, rfl, fun h => ?_, outputs_of_pos, readOutputs_of_not_valid⟩
  rw [outputs_depth_zero ((successor_depth s).trans h)]
  rfl

/-- Settles O45: power-up makes as many stages as the depth, and the reset edge clears each of them. -/
theorem powerUpThenResetEdgeLaunches : Obligations.PowerUpThenResetEdgeLaunches := by
  intro k d rest hd
  refine ⟨_, step_eq_successor _, ?_, (successor_depth _).trans (powerUpAt_depth k)⟩
  rw [State.launched, successor_depth]
  exact successor_stages_of_resetEdge hd

end Sys2Proof.Machine
end

section
/-! SUPPORT. After a reset edge: the cleared stages are pushed out one an edge (spec/10_state.md R31, R97, R101). -/

namespace Sys2Proof.Machine

open Sys2Proof

/-- Every stage from position `e` on, counted from 0 at S1, is cleared. -/
def State.clearedFrom (s : State) (e : Nat) : Prop :=
  ∀ j, e ≤ j → j < s.depth → s.stages[j]? = some Stage.cleared

/-- The rising edges in the next `n` slots: those past the end of the queue bring none (log entry 2). -/
def State.edgesIn (s : State) (n : Nat) : Nat := ((s.host.take n).filter (·.clkEdge)).length

theorem edgesIn_succ (s : State) (n : Nat) :
    s.edgesIn (n + 1) = (nextInputs s).clkEdge.toNat + s.successor.edgesIn n := by
  rw [State.edgesIn, State.edgesIn, successor_host]
  cases h : s.host with
  | nil => simp [nextInputs_nil h]
  | cons d rest => cases hd : d.clkEdge <;> simp [nextInputs_cons h, hd, Nat.add_comm]

theorem clearedFrom_of_replicate {s : State} (h : s.stages = List.replicate s.depth Stage.cleared) (e : Nat) :
    s.clearedFrom e := by
  intro j _ hj
  rw [h, List.getElem?_replicate, if_pos hj]

/-- An edge lets at most one stage that may hold something else into the cleared ones, and a slot without an edge none. -/
theorem successor_clearedFrom {s : State} {e : Nat} (h : s.clearedFrom e) :
    s.successor.clearedFrom (e + (nextInputs s).clkEdge.toNat) := by
  cases he : (nextInputs s).clkEdge with
  | false =>
    intro j hej hj
    rw [successor_stages_of_idle he]
    exact h j hej (by rwa [successor_depth] at hj)
  | true =>
    by_cases hr : (nextInputs s).resetEdge
    · exact clearedFrom_of_replicate (by rw [successor_depth, successor_stages_of_resetEdge hr]) _
    · rintro (_ | j) hej hj
      · cases hej
      · rw [successor_depth] at hj
        rw [successor_stages_of_sampled (sampled_of_edge he hr), shiftIn_getElem?_succ _ hj]
        exact h j (Nat.le_of_succ_le_succ hej) (Nat.lt_of_succ_lt hj)

theorem iterate_successor_clearedFrom {s : State} {e : Nat} (n : Nat) (h : s.clearedFrom e) :
    (State.successor^[n] s).clearedFrom (e + s.edgesIn n) := by
  induction n generalizing s e with
  | zero => exact h
  | succ n ih =>
    rw [Function.iterate_succ_apply, edgesIn_succ, ← Nat.add_assoc]
    exact ih (successor_clearedFrom h)

/-- When the cleared stages reach the last one, the outputs are those of a cleared stage. -/
theorem outputs_of_clearedFrom {s : State} {e : Nat} (h : s.clearedFrom e) (he : e < s.depth) :
    outputs s = { valid := some false, y := 0x00000000#32, ill := false } := by
  refine outputs_last (x := Stage.cleared) ?_
  rw [List.getLast?_eq_getElem?]
  exact h _ (Nat.le_sub_one_of_lt he) (Nat.sub_one_lt_of_lt he)

/-- Settles O43: from the reset edge on, the stages from position e on are cleared after e further edges. -/
theorem resetEdgeClears : Obligations.ResetEdgeClears := by
  refine fun s hr => ⟨fun he => ⟨_, step_eq_successor s, successor_stages_of_idle he⟩, fun he => ?_⟩
  have hclear := successor_stages_of_resetEdge ⟨he, hr⟩
  refine ⟨⟨_, step_eq_successor s, hclear⟩, fun m hm => ⟨_, run_eq_iterate (m + 1) s, ?_⟩⟩
  have h0 : s.successor.clearedFrom 0 := clearedFrom_of_replicate (by rw [successor_depth, hclear]) 0
  refine outputs_of_clearedFrom (iterate_successor_clearedFrom m h0) ?_
  rwa [Nat.zero_add, Function.iterate_succ_apply, iterate_successor_depth, successor_depth]

end Sys2Proof.Machine
end

section
/-! SUPPORT. The invariant of every step, and reset as its base and as a safe start (spec/10_state.md R17, R33; spec/60_exceptions.md R84). -/

namespace Sys2Proof.Machine

open Sys2Proof

theorem cleared_flagged : Stage.cleared.flagged := fun _ => rfl

/-- A stage after a slot is an old one, a cleared one or the sample, and each meets the clause on flags. -/
theorem clockStages_flagged {i : Inputs} {st : List Stage} (h : ∀ x ∈ st, x.flagged) :
    ∀ x ∈ clockStages i (dispatchInputs i) st, x.flagged := by
  intro x hx
  obtain hx | rfl | ⟨_, rfl⟩ := mem_clockStages hx
  · exact h x hx
  · exact cleared_flagged
  · exact dispatchF_y_of_ill

theorem successor_inv {s : State} (h : s.inv) : s.successor.inv :=
  ⟨rfl, clockStages_flagged h.2⟩

/-- Settles O49: the step drives F's wires from the inputs it presents, and what enters S1 is F's result. -/
theorem stepKeepsInvariant : Obligations.StepKeepsInvariant := by
  intro s t hs h
  rw [eq_successor_of_step h]
  exact successor_inv hs

/-- Settles O50: after reset the wires follow the inputs and every stage is cleared. -/
theorem resetHasInvariant : Obligations.ResetHasInvariant := by
  refine fun k => ⟨resetAt_combFollows k, fun x hx => ?_⟩
  rw [resetAt_mem_stages hx]
  exact cleared_flagged

theorem resetAt_faultFree (k : Nat) : (State.resetAt k).faultFree := by
  refine ⟨fun _ => rfl, fun x hx _ => ?_⟩
  rw [resetAt_mem_stages hx]
  rfl

/-- The queue is empty after reset, and the code 0x0 that stays on the ports is not reserved. -/
theorem resetAt_cleanQueue (k : Nat) : (State.resetAt k).cleanQueue := by
  intro i hi
  obtain rfl := List.mem_singleton.mp hi
  exact issuesReserved_of_not_reserved rfl _

/-- Settles O54: nothing is in flight in cleared stages, and nothing is queued. -/
theorem resetIsSafe : Obligations.ResetIsSafe :=
  fun k => ⟨resetAt_faultFree k, resetAt_cleanQueue k⟩

end Sys2Proof.Machine
end

section
/-! SUPPORT. Byte serialisation of ports and of packets (spec/20_memory.md R37; spec/30_encoding.md R47). -/

namespace Sys2Proof

/-! ## Ports -/

theorem ofBytes_toBytes {width : Nat} (x : BitVec width) : ofBytes width (toBytes x) = some x := by
  have hfit : (toBytes x).length = byteCount width ∧ natOfBytes (toBytes x) < 2 ^ width := by
    rw [natOfBytes_toBytes]
    exact ⟨toBytes_length x, x.isLt⟩
  rw [ofBytes, if_pos hfit, natOfBytes_toBytes, BitVec.ofNat_toNat, BitVec.setWidth_eq]

/-- Bytes of the right number whose value fits a width are the bytes of a value of that width. -/
theorem toBytes_ofNat_natOfBytes {width : Nat} {bs : List Byte} (hlen : bs.length = byteCount width)
    (hlt : natOfBytes bs < 2 ^ width) : toBytes (BitVec.ofNat width (natOfBytes bs)) = bs := by
  rw [toBytes, BitVec.toNat_ofNat, Nat.mod_eq_of_lt hlt, ← hlen, bytesOfNat_natOfBytes]

/-- Settles O36: reading undoes writing at every width, and a port word is the case of width 32. -/
theorem byteSerialisationIsLittleEndian : Obligations.ByteSerialisationIsLittleEndian :=
  ⟨fun w => ⟨ofBytes_toBytes w, toBytes_length w, fun _ _ => bytesOfNat_get⟩,
    fun _ x => ⟨ofBytes_toBytes x, toBytes_length x, fun _ _ => bytesOfNat_get⟩⟩

/-! ## Packets -/

/-- Byte j of any bytes is the digit at weight `2 ^ (8 * j)` of the number they carry. -/
theorem toNat_of_getElem? {bs : List Byte} {j : Nat} {b : Byte} (h : bs[j]? = some b) :
    b.toNat = natOfBytes bs / 2 ^ (8 * j) % 2 ^ 8 := by
  rw [← bytesOfNat_natOfBytes bs] at h
  exact bytesOfNat_get h

/-- Nine bytes hold 72 bits, and the four that a packet lacks are the upper half of the last byte. -/
theorem natOfBytes_lt_packet_iff {bs : List Byte} {last : Byte} (hlen : bs.length = 9) (hlast : bs[8]? = some last) :
    natOfBytes bs < 2 ^ 68 ↔ last.toNat < 16 := by
  have hlt := natOfBytes_lt bs
  have hdigit := toNat_of_getElem? hlast
  rw [hlen] at hlt
  omega

theorem decodeBytes_of_length_ne {bs : List Byte} (h : bs.length ≠ 9) : decodeBytes bs = .error .notNineBytes :=
  if_neg h

theorem decodeBytes_of_length {bs : List Byte} (h : bs.length = 9) :
    decodeBytes bs = decodeNumber (natOfBytes bs) :=
  if_pos h

theorem decodeNumber_of_le {n : Nat} (h : 2 ^ 68 ≤ n) : decodeNumber n = .error .widerThanPacket :=
  if_neg (Nat.not_lt.mpr h)

theorem decodeNumber_toNat (p : Packet) : decodeNumber p.toNat = .ok (decode p) := by
  rw [decodeNumber, if_pos p.isLt, BitVec.ofNat_toNat, BitVec.setWidth_eq]

theorem decodeBytes_toBytes (p : Packet) : decodeBytes (toBytes p) = .ok (decode p) := by
  rw [decodeBytes_of_length (toBytes_length p), natOfBytes_toBytes, decodeNumber_toNat]

/-- Settles O59: nine bytes with a last byte below 16 carry a number below 2^68 and so are the bytes of that packet; all
others are refused. -/
theorem packetBytesAreLittleEndian : Obligations.PacketBytesAreLittleEndian := by
  refine ⟨fun p => ⟨toBytes_length p, decodeBytes_toBytes p, fun _ _ => bytesOfNat_get⟩,
    fun _ => decodeBytes_of_length_ne, fun bs last hlen hlast => ⟨fun hwide => ?_, fun hfits => ?_⟩⟩
  · have hle : 2 ^ 68 ≤ natOfBytes bs :=
      Nat.not_lt.mp (mt (natOfBytes_lt_packet_iff hlen hlast).mp (Nat.not_lt.mpr hwide))
    rw [decodeBytes_of_length hlen, decodeNumber_of_le hle]
  · have hbytes : toBytes (BitVec.ofNat 68 (natOfBytes bs)) = bs :=
      toBytes_ofNat_natOfBytes hlen ((natOfBytes_lt_packet_iff hlen hlast).mpr hfits)
    refine ⟨_, hbytes, ?_⟩
    rw [← decodeBytes_toBytes, hbytes]

end Sys2Proof
end

section
/-! SUPPORT. What a slot's inputs alone decide (spec/20_memory.md R41, R43). -/

namespace Sys2Proof.Machine

open Sys2Proof

/-- What a rising edge leaves in S1: the cleared stage or the sample. What the stages held does not matter. -/
theorem clockStages_head? {i : Inputs} (r : Result) {st : List Stage} (he : i.clkEdge = true) (h : 0 < st.length) :
    (clockStages i r st).head? =
      some (if i.rst then Stage.cleared else { v := i.valid, y := r.y, ill := r.ill }) := by
  cases hr : i.rst with
  | true => simp [clockStages_reset ⟨he, hr⟩, List.head?_replicate, h.ne']
  | false => simp [clockStages_sample ⟨he, hr⟩, List.head?_eq_getElem?, shiftIn_getElem?_zero _ h]

theorem successor_outputs_of_depth_zero {s : State} (h : s.depth = 0) :
    outputs s.successor =
      { valid := none, y := (dispatchInputs (nextInputs s)).y, ill := (dispatchInputs (nextInputs s)).ill } := by
  rw [outputs_depth_zero ((successor_depth s).trans h), successor_comb]

/-- Settles O48: the wires, S1 after an edge and the outputs at depth 0 are each a function of the next slot's inputs. -/
theorem resultDependsOnInputsOnly : Obligations.ResultDependsOnInputsOnly := by
  refine fun s s' h => ⟨_, _, step_eq_successor s, step_eq_successor s', ?_, fun he hs hs' => ?_, fun hs hs' => ?_⟩
  · rw [successor_comb, successor_comb, h]
  · rw [successor_stages, successor_stages, clockStages_head? _ he hs, h, clockStages_head? _ (h ▸ he) hs']
  · rw [successor_outputs_of_depth_zero hs, successor_outputs_of_depth_zero hs', h]

end Sys2Proof.Machine
end

section
/-! SUPPORT. The packet and its three fields (spec/30_encoding.md R47), and the two ways round of its encoding (R50, R56). -/

namespace Sys2Proof

/-! ## Fields as numbers -/

theorem op_toNat (p : Packet) : p.op.toNat = p.toNat % 2 ^ 4 := by
  simp [Packet.op, BitVec.extractLsb'_toNat]

theorem a_toNat (p : Packet) : p.a.toNat = p.toNat / 2 ^ 4 % 2 ^ 32 := by
  simp [Packet.a, BitVec.extractLsb'_toNat, Nat.shiftRight_eq_div_pow]

theorem amt_toNat (p : Packet) : p.amt.toNat = p.toNat / 2 ^ 36 := by
  have hlt : p.toNat / 2 ^ 36 < 2 ^ 32 := by omega
  simpa [Packet.amt, BitVec.extractLsb'_toNat, Nat.shiftRight_eq_div_pow] using hlt

/-- The three fields rebuild the packet. -/
theorem packetOf_fields (p : Packet) : packetOf p.op p.a p.amt = p := by
  apply BitVec.eq_of_toNat_eq
  rw [packetOf_toNat, op_toNat, a_toNat, amt_toNat]
  omega

/-- With zeros for the amount, the low 36 bits are left. -/
theorem packetOf_fields_zero (p : Packet) : packetOf p.op p.a 0x00000000#32 = p &&& 0x00000000FFFFFFFFF#68 := by
  have hmask : (p &&& 0x00000000FFFFFFFFF#68).toNat = p.toNat % 2 ^ 36 := Nat.and_two_pow_sub_one_eq_mod _ 36
  apply BitVec.eq_of_toNat_eq
  rw [packetOf_toNat, op_toNat, a_toNat, hmask, BitVec.toNat_ofNat]
  omega

theorem packet_eq_of_fields {p q : Packet} (hop : p.op = q.op) (ha : p.a = q.a) (hamt : p.amt = q.amt) : p = q := by
  rw [← packetOf_fields p, hop, ha, hamt, packetOf_fields]

/-- Settles O30: the layout as a number determines each field, which is read back from it. -/
theorem packetLayout : Obligations.PacketLayout :=
  ⟨fun op a amt => ⟨packetOf_toNat op a amt, packetOf_op op a amt, packetOf_a op a amt, packetOf_amt op a amt⟩, by decide⟩

/-! ## Decoding after encoding -/

/-- Settles O27: each constructor has a code of its own and keeps the operand words it is encoded with. -/
theorem decodeEncodeIsIdentity : Obligations.DecodeEncodeIsIdentity := by
  intro i
  cases i with
  | raw a => exact Laws.RoundTrip.raw a
  | fraw a => exact Laws.RoundTrip.fraw a
  | sgn a => exact Laws.RoundTrip.sgn a
  | expu a => exact Laws.RoundTrip.expu a
  | expm a => exact Laws.RoundTrip.expm a
  | expb a => exact Laws.RoundTrip.expb a
  | manm a => exact Laws.RoundTrip.manm a
  | sheu a amt => exact Laws.RoundTrip.sheu a amt
  | shed a amt => exact Laws.RoundTrip.shed a amt
  | shmu a amt => exact Laws.RoundTrip.shmu a amt
  | shmd a amt => exact Laws.RoundTrip.shmd a amt
  | illegal7 a amt => exact Laws.RoundTrip.illegal7 a amt
  | illegalC a amt => exact Laws.RoundTrip.illegalC a amt
  | illegalD a amt => exact Laws.RoundTrip.illegalD a amt
  | illegalE a amt => exact Laws.RoundTrip.illegalE a amt
  | illegalF a amt => exact Laws.RoundTrip.illegalF a amt

/-- Settles O33: each packet is a literal. -/
theorem writtenPacketsDecode : Obligations.WrittenPacketsDecode :=
  ⟨by decide, by decide, by decide, by decide, by decide, by decide⟩

/-! ## Encoding after decoding -/

theorem opcode_cases (op : OpCode) :
    op = 0x0#4 ∨ op = 0x1#4 ∨ op = 0x2#4 ∨ op = 0x3#4 ∨ op = 0x4#4 ∨ op = 0x5#4 ∨ op = 0x6#4 ∨ op = 0x7#4 ∨
    op = 0x8#4 ∨ op = 0x9#4 ∨ op = 0xA#4 ∨ op = 0xB#4 ∨ op = 0xC#4 ∨ op = 0xD#4 ∨ op = 0xE#4 ∨ op = 0xF#4 := by
  revert op
  decide

/-- What a decoded instruction carries: the code, `a`, and the amount unless the code keeps no copy of it (R56). -/
theorem decodePorts_fields (op : OpCode) (a amt : Word32) :
    (decodePorts op a amt).opcode = op ∧ (decodePorts op a amt).operandA = a ∧
    (decodePorts op a amt).operandAmt = if op.ignoresAmt then 0x00000000#32 else amt := by
  rcases opcode_cases op with
    rfl | rfl | rfl | rfl | rfl | rfl | rfl | rfl | rfl | rfl | rfl | rfl | rfl | rfl | rfl | rfl <;>
    exact ⟨rfl, rfl, rfl⟩

theorem encode_decodePorts (op : OpCode) (a amt : Word32) :
    encode (decodePorts op a amt) = packetOf op a (if op.ignoresAmt then 0x00000000#32 else amt) := by
  obtain ⟨hop, ha, hamt⟩ := decodePorts_fields op a amt
  rw [encode, hop, ha, hamt]

theorem ignoresAmt_iff (op : OpCode) : op.ignoresAmt = true ↔ op.toNat ≤ 6 := by
  revert op
  decide

/-- Settles O28: the fields rebuild the packet, with zeros where decoding drops the amount. -/
theorem encodeDecodeIsCanonical : Obligations.EncodeDecodeIsCanonical := by
  refine fun p => ⟨fun h => ?_, fun h => ?_⟩
  · have hign : p.op.ignoresAmt = true := (ignoresAmt_iff _).mpr h
    rw [decode, encode_decodePorts, if_pos hign, packetOf_fields_zero]
  · have hign : ¬p.op.ignoresAmt = true := fun hc => by
      have := (ignoresAmt_iff _).mp hc
      omega
    rw [decode, encode_decodePorts, if_neg hign, packetOf_fields]

end Sys2Proof
end

section
/-! SUPPORT. The code map of R50 as bits and as hex codes (spec/30_encoding.md R46, R51, R52, R60). -/

namespace Sys2Proof.Machine

open Sys2Proof

/-- Settles O32: the decoder's bits and F's codes select one result, and delivering it is what R17 and R31 write out. -/
theorem decodedOperationIsF : Obligations.DecodedOperationIsF := by
  intro op a amt s
  rw [exec_decodePorts, deliver_eq_afterResult]

/-! ## Mutations and reserved codes -/

/-- R46: with `M = 1` and `R = 0`, F shifts the lane of bit `L` in the direction of bit `D`. -/
theorem dispatchF_of_mutation {op : OpCode} (hM : op.bitM = true) (hR : op.bitR = false) (a amt : Word32) :
    dispatchF op a amt = definedResult (mutate op.lane op.direction a amt) := by
  have codes : ∀ c : OpCode, c.bitM = true → c.bitR = false → c = 0x8#4 ∨ c = 0x9#4 ∨ c = 0xA#4 ∨ c = 0xB#4 := by
    decide
  obtain rfl | rfl | rfl | rfl := codes op hM hR <;> rfl

/-- R46, R52: with `M = 1`, `R` must be 0. -/
theorem reserved_of_bits {op : OpCode} (hM : op.bitM = true) (hR : op.bitR = true) : op.reserved = true := by
  revert op
  decide

/-- Settles O31: bits 3 and 2 tell the mutations from the reserved codes, and F agrees with both. -/
theorem opcodeBitsSelectMutation : Obligations.OpcodeBitsSelectMutation := by
  refine fun op a amt s hM => ⟨fun hR => ?_, fun hR => ?_⟩
  · rw [decodedOperationIsF, dispatchF_of_mutation hM hR]
    rfl
  · rw [decodedOperationIsF, dispatchF_of_reserved (reserved_of_bits hM hR)]
    rfl

theorem exec_of_reserved {i : Instr} (h : i.opcode.reserved = true) (s : State) :
    exec i s = .next (s.afterResult 0x00000000#32 true) := by
  rw [exec_eq, dispatchF_of_reserved h, deliver_eq_afterResult]
  rfl

theorem readOutputs_ne_result_of_ill {o : Outputs} (h : o.ill = true) (y : Word32) : readOutputs o ≠ .result y := by
  rw [readOutputs, if_pos h]
  split <;> nofun

/-- Settles O24: the five constructors carry reserved codes, and outputs with the flag are read as a fault or as no result. -/
theorem reservedCodesTakeIllegalOp : Obligations.ReservedCodesTakeIllegalOp :=
  ⟨fun _ _ s => ⟨⟨rfl, exec_of_reserved rfl s⟩, ⟨rfl, exec_of_reserved rfl s⟩, ⟨rfl, exec_of_reserved rfl s⟩,
      ⟨rfl, exec_of_reserved rfl s⟩, ⟨rfl, exec_of_reserved rfl s⟩⟩,
    fun _ y h => readOutputs_ne_result_of_ill h y⟩

/-! ## Amount bits -/

theorem ignoresAmt_or_reserved_iff (op : OpCode) :
    (op.ignoresAmt || op.reserved) = true ↔ op.toNat ≤ 7 ∨ 12 ≤ op.toNat := by
  revert op
  decide

/-- R49: the codes that do not shift do not read `amt_i`. -/
theorem dispatchF_amt_irrelevant {op : OpCode} (h : (op.ignoresAmt || op.reserved) = true) (a amt amt' : Word32) :
    dispatchF op a amt = dispatchF op a amt' := by
  rw [Bool.or_eq_true, ignoresAmt_iff] at h
  obtain h | h := h
  · have codes : ∀ c : OpCode, c.toNat ≤ 6 →
        c = 0x0#4 ∨ c = 0x1#4 ∨ c = 0x2#4 ∨ c = 0x3#4 ∨ c = 0x4#4 ∨ c = 0x5#4 ∨ c = 0x6#4 := by decide
    obtain rfl | rfl | rfl | rfl | rfl | rfl | rfl := codes op h <;> simp [dispatchF]
  · rw [dispatchF_of_reserved h, dispatchF_of_reserved h]

/-- Bits 35..0 are the code and the word on `a_i`. -/
theorem op_eq_and_a_eq_of_low {p q : Packet} (h : p.extractLsb' 0 36 = q.extractLsb' 0 36) :
    p.op = q.op ∧ p.a = q.a := by
  have hlow : p.toNat % 2 ^ 36 = q.toNat % 2 ^ 36 := by
    simpa [BitVec.extractLsb'_toNat] using congrArg BitVec.toNat h
  refine ⟨BitVec.eq_of_toNat_eq ?_, BitVec.eq_of_toNat_eq ?_⟩
  · rw [op_toNat, op_toNat]
    omega
  · rw [a_toNat, a_toNat]
    omega

/-- R60: packets that agree on bits 35..0 are one operation unless they shift by different amounts. -/
theorem sameOperation_iff {p q : Packet} (hop : p.op = q.op) (ha : p.a = q.a) :
    sameOperation p q = true ↔ (p.op.ignoresAmt || p.op.reserved) = true ∨ p.amt = q.amt := by
  simp [sameOperation, hop, ha]

/-- Settles O29: the low bits fix the code and `a`, so that only the amount of a shift is left to tell two packets apart. -/
theorem amountBitsDoNotSelect : Obligations.AmountBitsDoNotSelect := by
  intro p q s h
  obtain ⟨hop, ha⟩ := op_eq_and_a_eq_of_low h
  refine ⟨fun hcode => ?_, fun hlow hhigh => ?_⟩
  · have hign := (ignoresAmt_or_reserved_iff p.op).mpr hcode
    refine ⟨(sameOperation_iff hop ha).mpr (.inl hign), ?_⟩
    rw [decode, decode, exec_decodePorts, exec_decodePorts, ← hop, ← ha, dispatchF_amt_irrelevant hign]
  · have hshift : ¬(p.op.ignoresAmt || p.op.reserved) = true := by
      rw [ignoresAmt_or_reserved_iff]
      omega
    rw [sameOperation_iff hop ha, or_iff_right hshift]
    exact ⟨packet_eq_of_fields hop ha, congrArg Packet.amt⟩

end Sys2Proof.Machine
end

section
/-! SUPPORT. A command placed as the host's next slot (spec/60_exceptions.md R95; log entry 9). -/

namespace Sys2Proof.Machine

open Sys2Proof

theorem inputsOfTableWord_packet (p : Packet) : inputsOfTableWord 68 p.toNat = inputsOfPacket p := by
  rw [inputsOfTableWord, Nat.mod_eq_of_lt p.isLt, BitVec.ofNat_toNat, BitVec.setWidth_eq]

/-- Settles O38: the placed slot is the next one, and its levels are the packet's fields. -/
theorem placedPacketRunsNext : Obligations.PlacedPacketRunsNext := by
  intro s p
  have hhost : (s.withFetchWord 68 p.toNat).host = inputsOfPacket p :: s.host.tail := by
    rw [withFetchWord_host, inputsOfTableWord_packet]
  rw [step, fetch, nextInputs_cons hhost, present_cons hhost]
  rfl

end Sys2Proof.Machine
end

section
/-! SUPPORT. What the extractions compute, and how the host reads it (spec/41_extraction.md R64 to R68; spec/30_encoding.md R50; spec/60_exceptions.md R95). -/

namespace Sys2Proof.Machine

open Sys2Proof

/-! ## Fields under their masks -/

theorem signMask_shift (a : Word32) : (a &&& Config.signMask) >>> Config.signOffset = boolWord (signField a) := by
  refine BitVec.eq_of_getLsbD_eq fun i hi => ?_
  rw [BitVec.getLsbD_ushiftRight, BitVec.getLsbD_and, signMask_getLsbD, boolWord_getLsbD, signField, Config.signOffset]
  by_cases h : i = 0 <;> simp [h]

theorem expMask_shift (a : Word32) :
    (a &&& Config.expMask) >>> Config.expOffset = (exponentField a).setWidth 32 := by
  refine BitVec.eq_of_getLsbD_eq fun i hi => ?_
  rw [BitVec.getLsbD_ushiftRight, BitVec.getLsbD_and, expMask_getLsbD, BitVec.getLsbD_setWidth, exponentField,
    BitVec.getLsbD_extractLsb', Config.expOffset]
  have : 23 + i < 31 ↔ i < 8 := by omega
  simp [this, hi, Bool.and_comm]

theorem mantissaMask_and (a : Word32) : a &&& Config.mantissaMask = (mantissaField a).setWidth 32 := by
  refine BitVec.eq_of_getLsbD_eq fun i hi => ?_
  rw [BitVec.getLsbD_and, mantissaMask_getLsbD, BitVec.getLsbD_setWidth, mantissaField, BitVec.getLsbD_extractLsb']
  simp [hi, Bool.and_comm]

theorem sgnResult_y (a : Word32) : (sgnResult a).y = boolWord (signField a) := signMask_shift a

theorem expuResult_y (a : Word32) : (expuResult a).y = (exponentField a).setWidth 32 := expMask_shift a

theorem manmResult_y (a : Word32) : (manmResult a).y = (mantissaField a).setWidth 32 := mantissaMask_and a

theorem expbResult_y (a : Word32) : (expbResult a).y = sext32 ((exponentField a).toNat - 127) := by
  have hfield : ((a &&& Config.expMask) >>> Config.expOffset).toNat = (exponentField a).toNat := by
    rw [expMask_shift]
    exact BitVec.toNat_setWidth_of_le (by decide)
  show sext32 (((a &&& Config.expMask) >>> Config.expOffset).toNat - Config.expBias32) = _
  rw [hfield, Config.expBias32]

/-! ## Readings -/

theorem boolWord_ne_zero (b : Bool) : decide (boolWord b ≠ 0#32) = b := by
  cases b <;> rfl

/-- A number in the signed range is read back from its word. -/
theorem sval_sext32 {s : Int} (hlo : -2 ^ 31 ≤ s) (hhi : s < 2 ^ 31) : sval (sext32 s) = s := by
  rw [sval, sext32, BitVec.toInt_ofInt]
  exact Int.bmod_eq_of_le (by omega) (by omega)

/-- Settles O10: the code selects the reading, and the word of each extraction is the field it reads. -/
theorem resultsReadAsTheirKind : Obligations.ResultsReadAsTheirKind := by
  refine fun a amt y => ⟨?_, ?_, ?_, ?_, fun op hop => ?_, fun op hop => ?_⟩
  · show some (HostValue.boolean (decide ((sgnResult a).y ≠ 0#32))) = _
    rw [sgnResult_y, boolWord_ne_zero, signField]
  · show some (HostValue.unsigned (expuResult a).y.toNat) = _
    rw [expuResult_y, BitVec.toNat_setWidth_of_le (by decide), exponentField]
  · show some (HostValue.signed (sval (expbResult a).y)) = _
    have hlt := (exponentField a).isLt
    rw [expbResult_y, sval_sext32 (by omega) (by omega), exponentField]
  · show some (HostValue.unsigned (manmResult a).y.toNat) = _
    rw [manmResult_y, BitVec.toNat_setWidth_of_le (by decide), mantissaField]
  · fin_cases hop <;> rfl
  · fin_cases hop <;> rfl

end Sys2Proof.Machine
end

section
/-! SUPPORT. Statements and packets: what the assembler refuses and writes, and that it undoes the disassembler (spec/30_encoding.md R55, R56, R58, R59). -/

namespace Sys2Proof.Machine

open Sys2Proof

/-! ## Assembling a checked statement -/

theorem aInRange_iff (a : Nat) : aInRange a = true ↔ a ≤ 0xFFFFFFFF := by
  rw [aInRange, decide_eq_true_eq]
  omega

theorem readsAmt_iff (m : Mnemonic) : m.readsAmt = true ↔ m ∈ [Mnemonic.sheu, .shed, .shmu, .shmd] := by
  cases m <;> decide

theorem reservedNumber_iff (c : Nat) : reservedNumber c = true ↔ c ∈ [0x7, 0xC, 0xD, 0xE, 0xF] :=
  List.contains_iff_mem

theorem assemble_of_check_ok {st : Stmt} (h : st.check = .ok ()) : assemble st = .ok (packetOfStmt st) := by
  simp only [assemble, h]

theorem assemble_of_check_error {st : Stmt} {e : AsmError} (h : st.check = .error e) : assemble st = .error e := by
  simp only [assemble, h]

/-- The packet with an amount as written, or the refusal of that amount (R55, R56). -/
def writtenPacket (code : OpCode) (a : Nat) (l : AmtLiteral) : Except AsmError Packet :=
  if l.inRange then .ok (packetOf code (zext32 a) (amtBits l)) else .error .amtOutOfRange

theorem writtenPacket_decimal (code : OpCode) (a : Nat) (s : Int) :
    writtenPacket code a (.decimal s) =
      if -2147483648 ≤ s ∧ s ≤ 2147483647 then .ok (packetOf code (BitVec.ofNat 32 a) (BitVec.ofInt 32 s))
      else .error .amtOutOfRange := by
  simp only [writtenPacket, AmtLiteral.inRange, decide_eq_true_eq]
  rfl

theorem writtenPacket_hex (code : OpCode) (a n : Nat) :
    writtenPacket code a (.hex n) =
      if n ≤ 0xFFFFFFFF then .ok (packetOf code (BitVec.ofNat 32 a) (BitVec.ofNat 32 n))
      else .error .amtOutOfRange := by
  have hn : n < 2 ^ 32 ↔ n ≤ 0xFFFFFFFF := by omega
  simp only [writtenPacket, AmtLiteral.inRange, decide_eq_true_eq, hn]
  rfl

/-- A statement that is left to be refused for its amount alone. -/
theorem assemble_of_check_amt {st : Stmt} {code : OpCode} {a : Nat} {l : AmtLiteral}
    (hcheck : st.check = checkAmt true (some l)) (hpacket : packetOfStmt st = packetOf code (zext32 a) (amtBits l)) :
    assemble st = writtenPacket code a l := by
  rw [writtenPacket]
  split
  · rename_i hl
    rw [assemble_of_check_ok (hcheck.trans (if_pos hl)), hpacket]
  · rename_i hl
    exact assemble_of_check_error (hcheck.trans (if_neg hl))

section Op

variable {m : Mnemonic} {a : Nat}

theorem check_op (ha : a ≤ 0xFFFFFFFF) (o : Option AmtLiteral) : (Stmt.op m a o).check = checkAmt m.readsAmt o :=
  if_pos ((aInRange_iff a).mpr ha)

theorem assemble_op_of_reads (ha : a ≤ 0xFFFFFFFF) (hm : m.readsAmt = true) (l : AmtLiteral) :
    assemble (.op m a (some l)) = writtenPacket (codeOf m) a l :=
  assemble_of_check_amt (by rw [check_op ha, hm]) rfl

theorem assemble_op_amtMissing (ha : a ≤ 0xFFFFFFFF) (hm : m.readsAmt = true) :
    assemble (.op m a none) = .error .amtMissing :=
  assemble_of_check_error (by rw [check_op ha, hm]; rfl)

theorem assemble_op_of_not_reads (ha : a ≤ 0xFFFFFFFF) (hm : m.readsAmt = false) :
    assemble (.op m a none) = .ok (packetOf (codeOf m) (zext32 a) 0x00000000#32) :=
  assemble_of_check_ok (by rw [check_op ha, hm]; rfl)

theorem assemble_op_amtNotAllowed (ha : a ≤ 0xFFFFFFFF) (hm : m.readsAmt = false) (l : AmtLiteral) :
    assemble (.op m a (some l)) = .error .amtNotAllowed :=
  assemble_of_check_error (by rw [check_op ha, hm]; rfl)

end Op

theorem assemble_pseudo_amtNotAllowed {p : Pseudo} {a : Nat} (ha : a ≤ 0xFFFFFFFF) (hp : p.readsAmt = false)
    (l : AmtLiteral) : assemble (.pseudo p a (some l)) = .error .amtNotAllowed := by
  refine assemble_of_check_error ?_
  rw [Stmt.check, if_pos ((aInRange_iff a).mpr ha), hp]
  rfl

theorem assemble_illegal {c a : Nat} (hc : reservedNumber c = true) (ha : a ≤ 0xFFFFFFFF) (l : AmtLiteral) :
    assemble (.illegal c a l) = writtenPacket (BitVec.ofNat 4 c) a l := by
  refine assemble_of_check_amt ?_ rfl
  rw [Stmt.check, if_pos hc, if_pos ((aInRange_iff a).mpr ha)]

/-- Settles O56: each clause is one branch of the checks, which come in the order of log entry 21. -/
theorem assemblerRefusals : Obligations.AssemblerRefusals := by
  intro m p c a l o written
  have hwritten (code : OpCode) : written code = writtenPacket code a l := by
    cases l with
    | decimal s => exact (writtenPacket_decimal code a s).symm
    | hex n => exact (writtenPacket_hex code a n).symm
  have hbig (h : 0xFFFFFFFF < a) : ¬aInRange a = true := fun ha => Nat.not_le.mpr h ((aInRange_iff a).mp ha)
  refine ⟨fun ha => ⟨?_, ?_⟩, fun ha hm => ⟨?_, ?_⟩, fun ha hm => ⟨?_, ?_⟩, fun ha hp => ?_, fun hc => ?_,
    fun hc => ⟨fun ha => ?_, fun ha => ?_⟩⟩
  · exact assemble_of_check_error (if_neg (hbig ha))
  · exact assemble_of_check_error (if_neg (hbig ha))
  · exact assemble_op_amtMissing ha ((readsAmt_iff m).mpr hm)
  · rw [hwritten]
    exact assemble_op_of_reads ha ((readsAmt_iff m).mpr hm) l
  · exact assemble_op_amtNotAllowed ha (Bool.eq_false_iff.mpr (mt (readsAmt_iff m).mp hm)) l
  · exact assemble_op_of_not_reads ha (Bool.eq_false_iff.mpr (mt (readsAmt_iff m).mp hm))
  · have hreads : p.readsAmt = false := by fin_cases hp <;> rfl
    exact assemble_pseudo_amtNotAllowed ha hreads l
  · exact assemble_of_check_error (if_neg (mt (reservedNumber_iff c).mp hc))
  · refine assemble_of_check_error ?_
    rw [Stmt.check, if_pos ((reservedNumber_iff c).mpr hc), if_neg (hbig ha)]
  · rw [hwritten]
    exact assemble_illegal ((reservedNumber_iff c).mpr hc) ha l

/-- Settles O55: a pseudo-instruction passes the checks where its expansion does, whose fixed amount is in range, and writes
the packet of its expansion. -/
theorem pseudosAssembleAsExpansions : Obligations.PseudosAssembleAsExpansions :=
  fun _ _ => ⟨rfl, rfl, rfl, rfl⟩

/-! ## Assembling what the disassembler gives -/

/-- The three forms of a disassembled statement, each with the packet of its instruction (R56, R59). -/
theorem stmtOfInstr_cases (i : Instr) :
    (∃ m a, stmtOfInstr i = plainStmt m a ∧ m.readsAmt = false ∧ encode i = packetOf (codeOf m) a 0x00000000#32) ∨
    (∃ m a amt, stmtOfInstr i = shiftStmt m a amt ∧ m.readsAmt = true ∧ encode i = packetOf (codeOf m) a amt) ∨
    (∃ op a amt, stmtOfInstr i = illegalStmt op a amt ∧ op.reserved = true ∧ encode i = packetOf op a amt) := by
  cases i with
  | raw a | fraw a | sgn a | expu a | expm a | expb a | manm a => exact .inl ⟨_, a, rfl, rfl, rfl⟩
  | sheu a amt | shed a amt | shmu a amt | shmd a amt => exact .inr (.inl ⟨_, a, amt, rfl, rfl, rfl⟩)
  | illegal7 a amt | illegalC a amt | illegalD a amt | illegalE a amt | illegalF a amt =>
    exact .inr (.inr ⟨_, a, amt, rfl, rfl, rfl⟩)

theorem zext32_toNat (w : Word32) : zext32 w.toNat = w := by
  rw [zext32, BitVec.ofNat_toNat, BitVec.setWidth_eq]

theorem sext32_sval (w : Word32) : sext32 (sval w) = w := BitVec.ofInt_toInt

theorem toNat_le (w : Word32) : w.toNat ≤ 0xFFFFFFFF := Nat.le_of_lt_succ w.isLt

theorem assemble_plainStmt {m : Mnemonic} (hm : m.readsAmt = false) (a : Word32) :
    assemble (plainStmt m a) = .ok (packetOf (codeOf m) a 0x00000000#32) := by
  rw [plainStmt, assemble_op_of_not_reads (toNat_le a) hm, zext32_toNat]

theorem assemble_shiftStmt {m : Mnemonic} (hm : m.readsAmt = true) (a amt : Word32) :
    assemble (shiftStmt m a amt) = .ok (packetOf (codeOf m) a amt) := by
  have hrange : -2147483648 ≤ sval amt ∧ sval amt ≤ 2147483647 :=
    ⟨BitVec.le_toInt amt, Int.le_of_lt_add_one (BitVec.toInt_lt (x := amt))⟩
  have hbits : BitVec.ofInt 32 (sval amt) = amt := sext32_sval amt
  have ha : BitVec.ofNat 32 a.toNat = a := zext32_toNat a
  rw [shiftStmt, assemble_op_of_reads (toNat_le a) hm, writtenPacket_decimal, if_pos hrange, ha, hbits]

theorem reservedNumber_toNat {op : OpCode} (h : op.reserved = true) : reservedNumber op.toNat = true := by
  revert op
  decide

theorem assemble_illegalStmt {op : OpCode} (h : op.reserved = true) (a amt : Word32) :
    assemble (illegalStmt op a amt) = .ok (packetOf op a amt) := by
  have ha (w : Word32) : BitVec.ofNat 32 w.toNat = w := zext32_toNat w
  rw [illegalStmt, assemble_illegal (reservedNumber_toNat h) (toNat_le a), writtenPacket_hex, if_pos (toNat_le amt), ha,
    ha, BitVec.ofNat_toNat, BitVec.setWidth_eq]

theorem assemble_stmtOfInstr (i : Instr) : assemble (stmtOfInstr i) = .ok (encode i) := by
  obtain ⟨m, a, hst, hm, henc⟩ | ⟨m, a, amt, hst, hm, henc⟩ | ⟨op, a, amt, hst, hop, henc⟩ := stmtOfInstr_cases i
  · rw [hst, henc, assemble_plainStmt hm]
  · rw [hst, henc, assemble_shiftStmt hm]
  · rw [hst, henc, assemble_illegalStmt hop]

theorem stmtOfInstr_ne_pseudo (i : Instr) (p : Pseudo) (a : Nat) (o : Option AmtLiteral) :
    stmtOfInstr i ≠ .pseudo p a o := by
  obtain ⟨_, _, hst, _⟩ | ⟨_, _, _, hst, _⟩ | ⟨_, _, _, hst, _⟩ := stmtOfInstr_cases i <;>
    rw [hst] <;> nofun

/-- Settles O57: it holds of the statement of any instruction, and so of the one a packet decodes to. -/
theorem assembleDisassemble : Obligations.AssembleDisassemble :=
  fun p => ⟨assemble_stmtOfInstr (decode p), stmtOfInstr_ne_pseudo (decode p)⟩

end Sys2Proof.Machine
end

section
/-! SUPPORT. Lines of text: a printed line splits into its words again, each word reads back, and so the line assembles to its packet (spec/30_encoding.md R55, R59). -/

namespace Sys2Proof.Machine

open Sys2Proof

/-! ## Words -/

/-- What the printer writes between separators: some characters, all of them plain. -/
def PlainWord (w : List Char) : Prop := w ≠ [] ∧ ∀ c ∈ w, plainChar c = true

theorem not_blank_of_plainChar {c : Char} (h : plainChar c = true) : isBlank c = false := by
  simp only [plainChar, Bool.and_eq_true, Bool.not_eq_true'] at h
  exact h.1.1

theorem ne_comma_of_plainChar {c : Char} (h : plainChar c = true) : c ≠ ',' := by
  rintro rfl
  exact absurd h (by decide)

theorem ne_semicolon_of_plainChar {c : Char} (h : plainChar c = true) : c ≠ ';' := by
  rintro rfl
  exact absurd h (by decide)

/-- Text that starts and ends with plain words has no blank to drop at its ends. -/
theorem trimBlank_between {u v : List Char} (mid : List Char) (hu : PlainWord u) (hv : PlainWord v) :
    trimBlank (u ++ mid ++ v) = u ++ mid ++ v := by
  obtain ⟨hu, hplainu⟩ := hu
  obtain ⟨hv, hplainv⟩ := hv
  have hfront : (u ++ mid ++ v).dropWhile isBlank = u ++ mid ++ v := by
    obtain ⟨c, cs, rfl⟩ := List.exists_cons_of_ne_nil hu
    exact List.dropWhile_cons_of_neg (by simp [not_blank_of_plainChar (hplainu c (by simp))])
  have hback : (u ++ mid ++ v).rdropWhile isBlank = u ++ mid ++ v := by
    refine List.rdropWhile_eq_self_iff.mpr fun _ => ?_
    rw [List.getLast_append_of_ne_nil _ hv, not_blank_of_plainChar (hplainv _ (List.getLast_mem hv))]
    exact Bool.false_ne_true
  rw [trimBlank, hfront]
  exact hback

theorem trimBlank_space_cons {w : List Char} (h : PlainWord w) : trimBlank (' ' :: w) = w := by
  have hdrop : trimBlank (' ' :: w) = trimBlank w := rfl
  rw [hdrop, trimBlank_plain h.2]

/-! ## Lines of words -/

/-- Operands as the printer sets them out. -/
def operandText : List (List Char) → List Char
  | [] => []
  | [w] => w
  | w :: v :: ws => w ++ separator ++ operandText (v :: ws)

/-- A line of a first word and operands. -/
def lineText (head : List Char) (operands : List (List Char)) : List Char := head ++ ' ' :: operandText operands

/-- What a line says, from its first word and its operands. -/
def stmtOfWords (head : HeadWord) (operands : List (List Char)) : Except AsmError Stmt :=
  match head with
  | .op m => readOperands (.op m) operands
  | .pseudo p => readOperands (.pseudo p) operands
  | .entryPoint m => readOperands (.op m) operands
  | .shiftEntryPoint l => readShiftOperands l operands
  | .illegal => readIllegalOperands operands
  | .unknown => .error .unknownMnemonic

/-- The first blank of a line ends its first word. -/
theorem lineText_splits_at_blank {head : List Char} (hhead : PlainWord head) (operands : List (List Char)) :
    (lineText head operands).takeWhile (fun c => !isBlank c) = head ∧
    (lineText head operands).dropWhile (fun c => !isBlank c) = ' ' :: operandText operands := by
  have hplain : ∀ c ∈ head, (!isBlank c) = true := fun c hc => by rw [not_blank_of_plainChar (hhead.2 c hc)]; rfl
  have hblank : isBlank ' ' = true := by decide
  rw [lineText, List.takeWhile_append_of_pos hplain, List.dropWhile_append_of_pos hplain]
  simp [hblank]

section Operands

variable {operands : List (List Char)} (hwords : ∀ w ∈ operands, PlainWord w)

include hwords

theorem mem_operandText {c : Char} (hc : c ∈ operandText operands) : c ∈ separator ∨ plainChar c = true := by
  induction operands using operandText.induct with
  | case1 => cases hc
  | case2 w => exact .inr ((hwords w (by simp)).2 c hc)
  | case3 w v ws ih =>
    rw [operandText, List.mem_append, List.mem_append] at hc
    obtain (hc | hc) | hc := hc
    · exact .inr ((hwords w (by simp)).2 c hc)
    · exact .inl hc
    · exact ih (fun x hx => hwords x (List.mem_cons_of_mem _ hx)) hc

theorem operandText_ends_plain (hne : operands ≠ []) : ∃ u v, operandText operands = u ++ v ∧ PlainWord v := by
  induction operands using operandText.induct with
  | case1 => exact absurd rfl hne
  | case2 w => exact ⟨[], w, rfl, hwords w (by simp)⟩
  | case3 w v ws ih =>
    obtain ⟨x, y, hxy, hy⟩ := ih (fun x hx => hwords x (List.mem_cons_of_mem _ hx)) (by simp)
    exact ⟨w ++ separator ++ x, y, by simp [operandText, hxy], hy⟩

/-- The blank that each separator leaves before its operand, and the first one before all of them, are trimmed off. -/
theorem splitCommas_operandText (hne : operands ≠ []) :
    (splitCommas (' ' :: operandText operands)).map trimBlank = operands := by
  induction operands using operandText.induct with
  | case1 => exact absurd rfl hne
  | case2 w =>
    have hw := hwords w (by simp)
    have hsplit : splitCommas (' ' :: w) = [' ' :: w] := by simp [splitCommas, splitCommas_plain hw.2]
    rw [operandText, hsplit, List.map_singleton, trimBlank_space_cons hw]
  | case3 w v ws ih =>
    have hw := hwords w (by simp)
    have hcomma : ∀ c ∈ ' ' :: w, c ≠ ',' := by
      intro c hc
      obtain rfl | hc := List.mem_cons.mp hc
      · decide
      · exact ne_comma_of_plainChar (hw.2 c hc)
    have htext : ' ' :: operandText (w :: v :: ws) = (' ' :: w) ++ ',' :: ' ' :: operandText (v :: ws) := by
      simp [operandText, separator]
    rw [htext, splitCommas_append _ hcomma, List.map_cons, trimBlank_space_cons hw,
      ih (fun x hx => hwords x (List.mem_cons_of_mem _ hx)) (by simp)]

variable {head : List Char} (hhead : PlainWord head)

include hhead

theorem stripComment_lineText : stripComment (lineText head operands) = lineText head operands := by
  refine List.takeWhile_eq_self_iff.mpr fun c hc => decide_eq_true ?_
  rw [lineText, List.mem_append, List.mem_cons] at hc
  obtain hc | rfl | hc := hc
  · exact ne_semicolon_of_plainChar (hhead.2 c hc)
  · decide
  · obtain hc | hc := mem_operandText hwords hc
    · fin_cases hc <;> decide
    · exact ne_semicolon_of_plainChar hc

theorem trimBlank_lineText (hne : operands ≠ []) : trimBlank (lineText head operands) = lineText head operands := by
  obtain ⟨u, v, huv, hv⟩ := operandText_ends_plain hwords hne
  have htext : lineText head operands = head ++ ' ' :: u ++ v := by simp [lineText, huv]
  rw [htext, trimBlank_between _ hhead hv]

theorem readLine_lineText (hne : operands ≠ []) :
    readLine (lineText head operands) = (stmtOfWords (readHead head) operands).map some := by
  obtain ⟨htake, hdrop⟩ := lineText_splits_at_blank hhead operands
  obtain ⟨c, cs, hcons⟩ : ∃ c cs, lineText head operands = c :: cs :=
    List.exists_cons_of_ne_nil (by simp [lineText])
  simp only [readLine, stripComment_lineText hwords hhead, trimBlank_lineText hwords hhead hne, htake, hdrop,
    splitCommas_operandText hwords hne]
  rw [hcons]
  rfl

end Operands

/-! ## The words a statement is printed with -/

theorem plainWord_mnemonicName (m : Mnemonic) : PlainWord (mnemonicName m) := by
  cases m <;> exact ⟨List.cons_ne_nil _ _, List.all_eq_true.mp rfl⟩

theorem readHead_mnemonicName (m : Mnemonic) : readHead (mnemonicName m) = .op m := by
  cases m <;> rfl

theorem plainWord_printWord (n : Nat) : PlainWord (printWord n) := ⟨List.cons_ne_nil _ _, plain_printWord n⟩

theorem readUnsigned_printWord_toNat (a : Word32) : readUnsigned (printWord a.toNat) = some a.toNat :=
  readUnsigned_printWord a.isLt

theorem readAmt_printWord (amt : Word32) : readAmt (printWord amt.toNat) = some (.hex amt.toNat) := by
  simp only [readAmt, readHex_printWord amt.isLt]

theorem sval_natAbs_lt (amt : Word32) : (sval amt).natAbs < 10 ^ 10 := by
  have hlo := BitVec.le_toInt amt
  have hhi := BitVec.toInt_lt (x := amt)
  rw [sval]
  omega

theorem readAmt_printSigned_sval (amt : Word32) : readAmt (printSigned (sval amt)) = some (.decimal (sval amt)) :=
  (readAmt_printSigned (sval_natAbs_lt amt)).1

theorem plainWord_printSigned_sval (amt : Word32) : PlainWord (printSigned (sval amt)) := by
  refine ⟨fun hnil => ?_, (readAmt_printSigned (sval_natAbs_lt amt)).2⟩
  have hread := readAmt_printSigned_sval amt
  rw [hnil] at hread
  cases hread

/-- The code of `.illegal` as it is printed: one hex digit. -/
def printCode (code : Nat) : List Char := ['0', 'x', hexDigit code]

theorem plainWord_printCode (op : OpCode) : PlainWord (printCode op.toNat) := by
  refine ⟨List.cons_ne_nil _ _, fun c hc => ?_⟩
  fin_cases hc
  · decide
  · decide
  · exact plainChar_hexDigit op.isLt

theorem readHex_printCode (op : OpCode) : readHex (printCode op.toNat) = some op.toNat := by
  have hdigit : digitsValue 16 0 [hexDigit op.toNat] = some (0 * 16 + op.toNat) :=
    digitsValue_cons 0 [] op.isLt (Nat.le_refl 16)
  rw [Nat.zero_mul, Nat.zero_add] at hdigit
  exact hdigit

/-! ## Reading back the three forms -/

theorem readLine_print_plainStmt (m : Mnemonic) (a : Word32) :
    readLine (printStmt (plainStmt m a)) = .ok (some (plainStmt m a)) := by
  have htext : printStmt (plainStmt m a) = lineText (mnemonicName m) [printWord a.toNat] := by
    simp [printStmt, plainStmt, printOptAmt, lineText, operandText]
  have hwords : ∀ w ∈ [printWord a.toNat], PlainWord w := by simp [plainWord_printWord]
  rw [htext, readLine_lineText hwords (plainWord_mnemonicName m) (by simp), readHead_mnemonicName]
  simp only [stmtOfWords, readOperands, readUnsigned_printWord_toNat]
  rfl

theorem readLine_print_shiftStmt (m : Mnemonic) (a amt : Word32) :
    readLine (printStmt (shiftStmt m a amt)) = .ok (some (shiftStmt m a amt)) := by
  have htext : printStmt (shiftStmt m a amt) =
      lineText (mnemonicName m) [printWord a.toNat, printSigned (sval amt)] := by
    simp [printStmt, shiftStmt, printOptAmt, printAmt, lineText, operandText]
  have hwords : ∀ w ∈ [printWord a.toNat, printSigned (sval amt)], PlainWord w := by
    simp [plainWord_printWord, plainWord_printSigned_sval]
  rw [htext, readLine_lineText hwords (plainWord_mnemonicName m) (by simp), readHead_mnemonicName]
  simp only [stmtOfWords, readOperands, readUnsigned_printWord_toNat, readAmt_printSigned_sval]
  rfl

theorem readLine_print_illegalStmt (op : OpCode) (a amt : Word32) :
    readLine (printStmt (illegalStmt op a amt)) = .ok (some (illegalStmt op a amt)) := by
  have htext : printStmt (illegalStmt op a amt) =
      lineText ['.', 'i', 'l', 'l', 'e', 'g', 'a', 'l']
        [printCode op.toNat, printWord a.toNat, printWord amt.toNat] := by
    simp [printStmt, illegalStmt, printAmt, lineText, operandText, printCode]
  have hwords : ∀ w ∈ [printCode op.toNat, printWord a.toNat, printWord amt.toNat], PlainWord w := by
    simp [plainWord_printWord, plainWord_printCode]
  have hhead : PlainWord ['.', 'i', 'l', 'l', 'e', 'g', 'a', 'l'] := ⟨List.cons_ne_nil _ _, List.all_eq_true.mp rfl⟩
  have hread : readHead ['.', 'i', 'l', 'l', 'e', 'g', 'a', 'l'] = .illegal := rfl
  rw [htext, readLine_lineText hwords hhead (by simp), hread]
  simp only [stmtOfWords, readIllegalOperands, readHex_printCode, readUnsigned_printWord_toNat, readAmt_printWord]
  rfl

theorem readLine_print_stmtOfInstr (i : Instr) :
    readLine (printStmt (stmtOfInstr i)) = .ok (some (stmtOfInstr i)) := by
  obtain ⟨m, a, hst, _⟩ | ⟨m, a, amt, hst, _⟩ | ⟨op, a, amt, hst, _⟩ := stmtOfInstr_cases i
  · rw [hst, readLine_print_plainStmt]
  · rw [hst, readLine_print_shiftStmt]
  · rw [hst, readLine_print_illegalStmt]

/-- Settles O58: the printed line reads back as the disassembled statement, which assembles to the packet. -/
theorem printedLinesAssemble : Obligations.PrintedLinesAssemble := by
  intro p
  have hread : readLine (disassembleLine p) = .ok (some (disassemble p)) := readLine_print_stmtOfInstr (decode p)
  have hassemble : assemble (disassemble p) = .ok (encode (decode p)) := assemble_stmtOfInstr (decode p)
  simp only [assembleLine, hread, hassemble]
  rfl

end Sys2Proof.Machine
end

section
/-! SUPPORT. The two conversions drive their operand word, and so undo each other (spec/40_conversion.md R61 to R63). -/

namespace Sys2Proof.Machine

open Sys2Proof

@[simp] theorem afterResult_comb_y (s : State) (y : Word32) (ill : Bool) : (s.afterResult y ill).comb.y = y := rfl

theorem exec_raw (a : Word32) (s : State) : exec (.raw a) s = .next (s.afterResult a false) := by
  rw [exec_eq, deliver_eq_afterResult]
  rfl

theorem exec_fraw (a : Word32) (s : State) : exec (.fraw a) s = .next (s.afterResult a false) := by
  rw [exec_eq, deliver_eq_afterResult]
  rfl

/-- Settles O1: the code's four bits select RAW, and F of it is the operand word with the flag clear. -/
theorem rawReturnsItsWord : Obligations.RawReturnsItsWord :=
  fun a _ s => ⟨rfl, exec_raw a s⟩

/-- Settles O2: the code's four bits select FRAW, and F of it is the operand word with the flag clear. -/
theorem frawReturnsItsWord : Obligations.FrawReturnsItsWord :=
  fun a _ s => ⟨rfl, exec_fraw a s⟩

/-- Settles O3: each conversion leaves its word on F's wires, so the second is given `b` and drives it again. -/
theorem conversionsRoundTrip : Obligations.ConversionsRoundTrip := by
  refine fun b s => ⟨⟨_, _, exec_fraw b s, exec_raw _ _, ?_⟩, ⟨_, _, exec_raw b s, exec_fraw _ _, ?_⟩⟩
  · rw [afterResult_comb_y, afterResult_comb_y]
  · rw [afterResult_comb_y, afterResult_comb_y]

end Sys2Proof.Machine
end

section
/-! SUPPORT. The five extractions as fields of their word, and their laws (spec/41_extraction.md R64 to R69). -/

namespace Sys2Proof.Machine

open Sys2Proof

/-! ## What each extraction leaves behind (R64 to R68) -/

/-- A code that is not reserved drives its word with the flag clear (R85), and the state takes it as R17 and R31 say. -/
theorem exec_of_not_reserved (i : Instr) {y : Word32} (hdef : i.opcode.reserved = false)
    (hy : (dispatchF i.opcode i.operandA i.operandAmt).y = y) (s : State) :
    exec i s = .next (s.afterResult y false) := by
  rw [exec_eq, deliver_eq_afterResult, dispatchF_ill, hdef, hy]

/-- The stored exponent less its bias fits a signed word, so it reads back exactly. -/
theorem sval_trueExponent (a : Word32) :
    sval (sext32 ((exponentField a).toNat - 127)) = (exponentField a).toNat - 127 := by
  have hlt := (exponentField a).isLt
  exact sval_sext32 (by omega) (by omega)

/-- Settles O4: the sign bit, brought down to bit 0, is the word of a boolean. -/
theorem sgnReturnsSignBit : Obligations.SgnReturnsSignBit :=
  fun a _ s => ⟨rfl, exec_of_not_reserved (.sgn a) rfl (sgnResult_y a) s⟩

/-- Settles O5: the masked exponent, brought down to bit 0, is the field zero-extended. -/
theorem expuReturnsStoredField : Obligations.ExpuReturnsStoredField :=
  fun a _ s => ⟨rfl, exec_of_not_reserved (.expu a) rfl (expuResult_y a) s⟩

/-- Settles O6: EXPM drives the masked word itself. -/
theorem expmReturnsFieldInPlace : Obligations.ExpmReturnsFieldInPlace :=
  fun a _ s => ⟨rfl, exec_of_not_reserved (.expm a) rfl rfl s⟩

/-- Settles O7: the word is the field less 127, and reads back so because the difference fits. -/
theorem expbReturnsTrueExponent : Obligations.ExpbReturnsTrueExponent :=
  fun a _ s => ⟨rfl, _, rfl, sval_trueExponent a, exec_of_not_reserved (.expb a) rfl (expbResult_y a) s⟩

/-- Settles O8: the masked mantissa is the field zero-extended. -/
theorem manmReturnsMantissa : Obligations.ManmReturnsMantissa :=
  fun a _ s => ⟨rfl, exec_of_not_reserved (.manm a) rfl (manmResult_y a) s⟩

/-! ## Ranges (R69) -/

theorem boolWord_zero_or_one (b : Bool) : boolWord b = 0#32 ∨ boolWord b = 1#32 := by
  cases b
  · exact .inl rfl
  · exact .inr rfl

theorem expuResult_toNat (a : Word32) : (expuResult a).y.toNat = (exponentField a).toNat := by
  rw [expuResult_y, BitVec.toNat_setWidth_of_le (by decide)]

theorem manmResult_toNat (a : Word32) : (manmResult a).y.toNat = (mantissaField a).toNat := by
  rw [manmResult_y, BitVec.toNat_setWidth_of_le (by decide)]

theorem expbResult_toInt (a : Word32) : (expbResult a).y.toInt = ((expuResult a).y.toNat : Int) - 127 := by
  rw [expbResult_y, expuResult_toNat]
  exact sval_trueExponent a

/-! ## Fields in place (R69) -/

/-- Shifting a masked field down and up again restores it when the mask has no bit below the field. -/
theorem masked_shift_back {mask : Word32} {n : Nat} (h : mask &&& BitVec.allOnes 32 <<< n = mask) (a : Word32) :
    ((a &&& mask) >>> n) <<< n = a &&& mask := by
  rw [BitVec.shiftLeft_ushiftRight, BitVec.and_assoc, h]

theorem sgnResult_shiftLeft (a : Word32) : (sgnResult a).y <<< 31 = a &&& Config.signMask :=
  masked_shift_back (by decide) a

theorem expuResult_shiftLeft (a : Word32) : (expuResult a).y <<< 23 = a &&& Config.expMask :=
  masked_shift_back (by decide) a

/-- Disjoint masks cut disjoint parts out of a word. -/
theorem masked_disjoint {m n : Word32} (h : m &&& n = 0#32) (a : Word32) : (a &&& m) &&& (a &&& n) = 0#32 := by
  calc (a &&& m) &&& (a &&& n) = (a &&& a) &&& (m &&& n) := by ac_rfl
    _ = 0#32 := by rw [h, BitVec.and_zero]

/-- The three masks cover the word, so its masked parts put it together again. -/
theorem masked_parts_recompose (a : Word32) :
    (a &&& Config.signMask) ||| (a &&& Config.expMask) ||| (a &&& Config.mantissaMask) = a := by
  have hcover : Config.signMask ||| Config.expMask ||| Config.mantissaMask = BitVec.allOnes 32 := by decide
  rw [← BitVec.and_or_distrib_left, ← BitVec.and_or_distrib_left, hcover, BitVec.and_allOnes]

/-- Settles O9: the ranges are those of the fields; shifted back in place, the sign and the exponent are the word under
their masks, as EXPM and MANM are, and the three masks are disjoint and cover the word. -/
theorem extractionLaws : Obligations.ExtractionLaws := by
  intro a amt sgn expu expm expb manm
  have hsgn : sgn <<< 31 = a &&& Config.signMask := sgnResult_shiftLeft a
  have hexpu : expu.toNat = (exponentField a).toNat := expuResult_toNat a
  have hmanm : manm.toNat = (mantissaField a).toNat := manmResult_toNat a
  have hexpb : expb.toInt = (expu.toNat : Int) - 127 := expbResult_toInt a
  have hexpLt := (exponentField a).isLt
  have hmantLt := (mantissaField a).isLt
  obtain ⟨_, _, _, _, _, _, _, _, _, hsignExp, hsignMant, hexpMant, _⟩ := masksAndConstants
  refine ⟨?_, by omega, by omega, by omega, (expuResult_shiftLeft a).symm, hexpb, ?_, ?_, ?_, ?_⟩
  · show (sgnResult a).y = 0#32 ∨ (sgnResult a).y = 1#32
    rw [sgnResult_y]
    exact boolWord_zero_or_one _
  · rw [hsgn]
    exact (masked_parts_recompose a).symm
  · rw [hsgn]
    exact masked_disjoint hsignExp a
  · rw [hsgn]
    exact masked_disjoint hsignMant a
  · exact masked_disjoint hexpMant a

end Sys2Proof.Machine
end

section
/-! SUPPORT. A lane shift bit by bit, and as a shift of the lane's own field (spec/42_mutation.md R71, R73, R78). -/

namespace Sys2Proof.Machine

open Sys2Proof

/-! ## Bit by bit, for any mask (R73) -/

theorem laneShift_getLsbD_of_not_mask {mask : Word32} {i : Nat} (h : mask.getLsbD i = false) (a : Word32)
    (d : Direction) (n : Nat) : (laneShift a mask d n).getLsbD i = a.getLsbD i := by
  by_cases hi : i < 32
  · cases d <;> simp only [laneShift, BitVec.getLsbD_or, BitVec.getLsbD_and, BitVec.getLsbD_not, h, hi, Bool.and_false,
      Bool.false_or, Bool.not_false, decide_true, Bool.and_true]
  · rw [BitVec.getLsbD_of_ge _ _ (by omega), BitVec.getLsbD_of_ge _ _ (by omega)]

theorem laneShift_up_getLsbD {mask : Word32} {i : Nat} (h : mask.getLsbD i = true) (a : Word32) (n : Nat) :
    (laneShift a mask .up n).getLsbD i = (decide (n ≤ i) && mask.getLsbD (i - n) && a.getLsbD (i - n)) := by
  have hi : i < 32 := BitVec.lt_of_getLsbD h
  simp only [laneShift, BitVec.getLsbD_or, BitVec.getLsbD_and, BitVec.getLsbD_not, BitVec.getLsbD_shiftLeft, h]
  by_cases hn : n ≤ i
  · simp [hi, hn, Nat.not_lt.mpr hn, Bool.and_comm]
  · simp [hn, Nat.lt_of_not_le hn]

theorem laneShift_down_getLsbD {mask : Word32} {i : Nat} (h : mask.getLsbD i = true) (a : Word32) (n : Nat) :
    (laneShift a mask .down n).getLsbD i = (mask.getLsbD (i + n) && a.getLsbD (i + n)) := by
  simp [laneShift, h, Bool.and_comm, Nat.add_comm n i]

/-- Settles O13: the mask decides whether a bit of the result is the operand's or the shifted field's. -/
theorem laneShiftBits : Obligations.LaneShiftBits :=
  fun a _ n _ _ => ⟨fun h d => laneShift_getLsbD_of_not_mask h a d n,
    fun h => ⟨laneShift_up_getLsbD h a n, laneShift_down_getLsbD h a n⟩⟩

/-! ## The two lanes (R71) -/

/-- The lowest bit of a lane. -/
def laneOffset : Lane → Nat
  | .exponent => Config.expOffset
  | .mantissa => 0

/-- The field of a lane: `exponentField` or `mantissaField`. -/
def laneField (l : Lane) (w : Word32) : BitVec (laneWidth l) := w.extractLsb' (laneOffset l) (laneWidth l)

/-- A lane's mask has the bits from its offset on, as many as the lane is wide. -/
theorem laneMask_getLsbD (l : Lane) (i : Nat) :
    (laneMask l).getLsbD i = decide (laneOffset l ≤ i ∧ i < laneOffset l + laneWidth l) := by
  cases l with
  | exponent => exact expMask_getLsbD i
  | mantissa =>
    rw [laneMask, mantissaMask_getLsbD]
    simp [laneOffset, laneWidth, Config.mantWidth]

/-- A field shifted by itself, zeros coming in and bits that leave it lost. -/
def shiftField {width : Nat} (d : Direction) (x : BitVec width) (n : Nat) : BitVec width :=
  match d with
  | .up => x <<< n
  | .down => x >>> n

/-- R78: shifting a lane within its word is shifting its field by itself. -/
theorem laneField_laneShift (l : Lane) (a : Word32) (d : Direction) (n : Nat) :
    laneField l (laneShift a (laneMask l) d n) = shiftField d (laneField l a) n := by
  refine BitVec.eq_of_getLsbD_eq fun i hi => ?_
  have hmask : (laneMask l).getLsbD (laneOffset l + i) = true := by simp [laneMask_getLsbD, hi]
  cases d with
  | up =>
    simp only [laneField, shiftField, BitVec.getLsbD_extractLsb', BitVec.getLsbD_shiftLeft, laneShift_up_getLsbD hmask,
      laneMask_getLsbD]
    by_cases hn : i < n
    · have hbelow : ¬n ≤ laneOffset l + i ∨ ¬laneOffset l ≤ laneOffset l + i - n := by omega
      rcases hbelow with hword | hlane
      · simp [hn, hword]
      · simp [hn, hlane]
    · have hsub : laneOffset l + i - n = laneOffset l + (i - n) := by omega
      have hlt : i - n < laneWidth l := by omega
      have hle : n ≤ laneOffset l + i := by omega
      simp [hsub, hlt, hle, hi, hn]
  | down =>
    simp [laneField, shiftField, laneShift_down_getLsbD hmask, laneMask_getLsbD, hi, Nat.add_assoc, Nat.add_comm n i]

theorem shiftField_zero {width : Nat} (d : Direction) (x : BitVec width) : shiftField d x 0 = x := by
  cases d with
  | up => exact BitVec.shiftLeft_zero x
  | down => exact BitVec.ushiftRight_zero x

/-- A field shifted by its width or more is empty. -/
theorem shiftField_of_width_le {width n : Nat} (h : width ≤ n) (d : Direction) (x : BitVec width) :
    shiftField d x n = 0#width := by
  cases d with
  | up => exact BitVec.shiftLeft_eq_zero h
  | down => exact BitVec.ushiftRight_eq_zero h

theorem laneField_and_not_mask (l : Lane) (a : Word32) : laneField l (a &&& ~~~laneMask l) = 0#(laneWidth l) := by
  refine BitVec.eq_of_getLsbD_eq fun i hi => ?_
  simp [laneField, laneMask_getLsbD, hi]

/-- A word is its lane's field and the bits outside the lane. -/
theorem eq_of_laneField_eq {l : Lane} {v w : Word32} (hfield : laneField l v = laneField l w)
    (houtside : ∀ i < 32, (laneMask l).getLsbD i = false → v.getLsbD i = w.getLsbD i) : v = w := by
  refine BitVec.eq_of_getLsbD_eq fun i hlt => ?_
  cases hmask : (laneMask l).getLsbD i with
  | false => exact houtside i hlt hmask
  | true =>
    have hin : laneOffset l ≤ i ∧ i < laneOffset l + laneWidth l := by simpa [laneMask_getLsbD] using hmask
    have hbit := congrArg (·.getLsbD (i - laneOffset l)) hfield
    have hwidth : i - laneOffset l < laneWidth l := by omega
    simpa [laneField, hwidth, hin.1] using hbit

end Sys2Proof.Machine
end

section
/-! SUPPORT. The signed amount: its direction, its magnitude and the count (spec/42_mutation.md R70 to R72). -/

namespace Sys2Proof.Machine

open Sys2Proof

theorem resolve_of_nonneg {amt : Word32} (h : 0 ≤ amt.toInt) (d : Direction) : resolve d amt = (d, amt.toInt.natAbs) :=
  Prod.ext (by simp [resolve, sval, h]) (resolve_magnitude d amt)

theorem resolve_of_neg {amt : Word32} (h : amt.toInt < 0) (d : Direction) :
    resolve d amt = (flipDirection d, amt.toInt.natAbs) :=
  Prod.ext (by simp [resolve, sval, Int.not_le.mpr h]) (resolve_magnitude d amt)

/-- Settles O11: the sign decides the direction, and 0x80000000 is one of the negative amounts. -/
theorem amountResolution : Obligations.AmountResolution :=
  fun d _ => ⟨fun h => resolve_of_nonneg h d, fun h => ⟨resolve_of_neg h .up, resolve_of_neg h .down⟩,
    resolve_of_neg (by decide) .up⟩

theorem laneWidth_le (l : Lane) : laneWidth l ≤ 23 := by
  cases l <;> decide

/-- Settles O12: the count is a minimum with the lane width, and both widths are below 32. -/
theorem countSaturates : Obligations.CountSaturates := by
  refine fun mag => ⟨rfl, rfl, fun l => ⟨clampCount_le l mag, laneWidth_le l, ?_⟩⟩
  calc clampCount l mag ≤ laneWidth l := clampCount_le l mag
    _ ≤ 23 := laneWidth_le l
    _ < 32 := by decide

end Sys2Proof.Machine
end

section
/-! SUPPORT. The four mutations: what they execute, their field form, what they keep, and their laws (spec/42_mutation.md R74
to R82). -/

namespace Sys2Proof.Machine

open Sys2Proof

/-! ## What each code executes (R74 to R77) -/

/-- Settles O14: code 0x8 resolves from direction up and clamps to the exponent lane's width. -/
theorem sheuShiftsExponent : Obligations.SheuShiftsExponent :=
  fun a amt s => ⟨rfl, exec_of_not_reserved (.sheu a amt) rfl rfl s⟩

/-- Settles O15: code 0x9 resolves from direction down and clamps to the exponent lane's width. -/
theorem shedShiftsExponent : Obligations.ShedShiftsExponent :=
  fun a amt s => ⟨rfl, exec_of_not_reserved (.shed a amt) rfl rfl s⟩

/-- Settles O16: code 0xA resolves from direction up and clamps to the mantissa lane's width. -/
theorem shmuShiftsMantissa : Obligations.ShmuShiftsMantissa :=
  fun a amt s => ⟨rfl, exec_of_not_reserved (.shmu a amt) rfl rfl s⟩

/-- Settles O17: code 0xB resolves from direction down and clamps to the mantissa lane's width. -/
theorem shmdShiftsMantissa : Obligations.ShmdShiftsMantissa :=
  fun a amt s => ⟨rfl, exec_of_not_reserved (.shmd a amt) rfl rfl s⟩

/-- Codes 0x8 and 0x9 shift the exponent lane, each from its direction. -/
theorem dispatchF_exponentShift {op : OpCode} (h : op = 0x8#4 ∨ op = 0x9#4) (a amt : Word32) :
    ∃ d, (dispatchF op a amt).y = mutate .exponent d a amt := by
  obtain rfl | rfl := h
  · exact ⟨.up, rfl⟩
  · exact ⟨.down, rfl⟩

/-- Codes 0xA and 0xB shift the mantissa lane, each from its direction. -/
theorem dispatchF_mantissaShift {op : OpCode} (h : op = 0xA#4 ∨ op = 0xB#4) (a amt : Word32) :
    ∃ d, (dispatchF op a amt).y = mutate .mantissa d a amt := by
  obtain rfl | rfl := h
  · exact ⟨.up, rfl⟩
  · exact ⟨.down, rfl⟩

/-- The four codes of R46 with `M = 1` and `R = 0` shift one of the two lanes. -/
theorem dispatchF_laneShift {op : OpCode} (h : op = 0x8#4 ∨ op = 0x9#4 ∨ op = 0xA#4 ∨ op = 0xB#4) (a amt : Word32) :
    ∃ l d, (dispatchF op a amt).y = mutate l d a amt := by
  obtain h | h | h := h
  · exact ⟨_, dispatchF_exponentShift (.inl h) a amt⟩
  · exact ⟨_, dispatchF_exponentShift (.inr h) a amt⟩
  · exact ⟨_, dispatchF_mantissaShift h a amt⟩

/-! ## A mutation as a shift of its lane's field (R78) -/

section
variable {l : Lane} {d : Direction} {a amt : Word32}

theorem mutate_eq (l : Lane) (d : Direction) (a amt : Word32) :
    mutate l d a amt = laneShift a (laneMask l) (resolve d amt).1 (min amt.toInt.natAbs (laneWidth l)) := by
  rw [mutate, clampCount, resolve_magnitude]

theorem laneField_mutate (l : Lane) (d : Direction) (a amt : Word32) :
    laneField l (mutate l d a amt) =
      shiftField (resolve d amt).1 (laneField l a) (min amt.toInt.natAbs (laneWidth l)) := by
  rw [mutate_eq, laneField_laneShift]

theorem laneField_mutate_toNat_of_up (h : (resolve d amt).1 = .up) :
    (laneField l (mutate l d a amt)).toNat =
      (laneField l a).toNat * 2 ^ min amt.toInt.natAbs (laneWidth l) % 2 ^ laneWidth l := by
  rw [laneField_mutate, h, shiftField, BitVec.toNat_shiftLeft, Nat.shiftLeft_eq]

theorem laneField_mutate_toNat_of_down (h : (resolve d amt).1 = .down) :
    (laneField l (mutate l d a amt)).toNat = (laneField l a).toNat / 2 ^ min amt.toInt.natAbs (laneWidth l) := by
  rw [laneField_mutate, h, shiftField, BitVec.toNat_ushiftRight, Nat.shiftRight_eq_div_pow]

/-- An amount that is not negative multiplies upward and divides downward. -/
theorem laneField_mutate_toNat_of_nonneg (l : Lane) (a : Word32) (h : 0 ≤ amt.toInt) :
    (laneField l (mutate l .up a amt)).toNat =
        (laneField l a).toNat * 2 ^ min amt.toInt.natAbs (laneWidth l) % 2 ^ laneWidth l ∧
      (laneField l (mutate l .down a amt)).toNat = (laneField l a).toNat / 2 ^ min amt.toInt.natAbs (laneWidth l) :=
  ⟨laneField_mutate_toNat_of_up (by rw [resolve_of_nonneg h]),
    laneField_mutate_toNat_of_down (by rw [resolve_of_nonneg h])⟩

/-- A negative amount divides upward and multiplies downward. -/
theorem laneField_mutate_toNat_of_neg (l : Lane) (a : Word32) (h : amt.toInt < 0) :
    (laneField l (mutate l .up a amt)).toNat = (laneField l a).toNat / 2 ^ min amt.toInt.natAbs (laneWidth l) ∧
      (laneField l (mutate l .down a amt)).toNat =
        (laneField l a).toNat * 2 ^ min amt.toInt.natAbs (laneWidth l) % 2 ^ laneWidth l :=
  ⟨laneField_mutate_toNat_of_down (by rw [resolve_of_neg h, flipDirection]),
    laneField_mutate_toNat_of_up (by rw [resolve_of_neg h, flipDirection])⟩

/-! ## What a mutation keeps (R79) -/

theorem mutate_getLsbD_of_not_mask {i : Nat} (h : (laneMask l).getLsbD i = false) :
    (mutate l d a amt).getLsbD i = a.getLsbD i := by
  rw [mutate_eq, laneShift_getLsbD_of_not_mask h]

/-- Any run of bits outside the lane is kept. -/
theorem mutate_extractLsb'_of_not_mask {start len : Nat}
    (h : ∀ i < len, (laneMask l).getLsbD (start + i) = false) :
    (mutate l d a amt).extractLsb' start len = a.extractLsb' start len := by
  refine BitVec.eq_of_getLsbD_eq fun i hi => ?_
  rw [BitVec.getLsbD_extractLsb', BitVec.getLsbD_extractLsb', mutate_getLsbD_of_not_mask (h i hi)]

/-- A mutation does not show under a mask that is disjoint from its lane. -/
theorem mutate_and_of_disjoint {mask : Word32} (h : mask &&& laneMask l = 0#32) :
    mutate l d a amt &&& mask = a &&& mask := by
  refine BitVec.eq_of_getLsbD_eq fun i _ => ?_
  have hdisj : (mask.getLsbD i && (laneMask l).getLsbD i) = false := by
    rw [← BitVec.getLsbD_and, h, BitVec.getLsbD_zero]
  rw [BitVec.getLsbD_and, BitVec.getLsbD_and]
  cases hmask : mask.getLsbD i with
  | false => rw [Bool.and_false, Bool.and_false]
  | true => rw [mutate_getLsbD_of_not_mask (by simpa [hmask] using hdisj)]

theorem laneMask_getLsbD_sign (l : Lane) : (laneMask l).getLsbD 31 = false := by
  cases l <;> decide

end

/-- Settles O18: the sign of the amount gives the effective direction, and the exponent lane's mask leaves out bits 31 and
22..0. -/
theorem exponentShiftFieldForm : Obligations.ExponentShiftFieldForm := by
  intro a amt
  have kept (d : Direction) : (mutate .exponent d a amt).getLsbD 31 = a.getLsbD 31 ∧
      (mutate .exponent d a amt).extractLsb' 0 23 = a.extractLsb' 0 23 :=
    ⟨mutate_getLsbD_of_not_mask (laneMask_getLsbD_sign _), mutate_extractLsb'_of_not_mask (by decide)⟩
  refine ⟨laneField_mutate_toNat_of_nonneg .exponent a, laneField_mutate_toNat_of_neg .exponent a, ?_⟩
  rintro y (rfl | rfl)
  · exact kept .up
  · exact kept .down

/-- Settles O19: as O18, with the mantissa lane's mask leaving out bits 31..23. -/
theorem mantissaShiftFieldForm : Obligations.MantissaShiftFieldForm := by
  intro a amt
  have kept (d : Direction) : (mutate .mantissa d a amt).extractLsb' 23 9 = a.extractLsb' 23 9 :=
    mutate_extractLsb'_of_not_mask (by decide)
  refine ⟨laneField_mutate_toNat_of_nonneg .mantissa a, laneField_mutate_toNat_of_neg .mantissa a, ?_⟩
  rintro y (rfl | rfl)
  · exact kept .up
  · exact kept .down

/-! ## Extractions after a mutation (R79)

Each extraction reads its word under one mask only. -/

theorem sgnResult_congr {a b : Word32} (h : a &&& Config.signMask = b &&& Config.signMask) :
    sgnResult a = sgnResult b := by rw [sgnResult, sgnResult, h]

theorem expuResult_congr {a b : Word32} (h : a &&& Config.expMask = b &&& Config.expMask) :
    expuResult a = expuResult b := by rw [expuResult, expuResult, h]

theorem expmResult_congr {a b : Word32} (h : a &&& Config.expMask = b &&& Config.expMask) :
    expmResult a = expmResult b := by rw [expmResult, expmResult, h]

theorem expbResult_congr {a b : Word32} (h : a &&& Config.expMask = b &&& Config.expMask) :
    expbResult a = expbResult b := by simp only [expbResult, h]

theorem manmResult_congr {a b : Word32} (h : a &&& Config.mantissaMask = b &&& Config.mantissaMask) :
    manmResult a = manmResult b := by rw [manmResult, manmResult, h]

/-- Settles O20: the masks under which SGN and MANM read are disjoint from the exponent lane, those of SGN, EXPU, EXPM and
EXPB from the mantissa lane, and neither lane holds bit 31. -/
theorem mutationsLeaveOtherFields : Obligations.MutationsLeaveOtherFields := by
  refine fun a amt x op => ⟨fun hop f hf => ?_, fun hop f hf => ?_, fun hop => ?_⟩
  · obtain ⟨d, hy⟩ := dispatchF_exponentShift hop a amt
    rw [hy]
    obtain rfl | rfl := hf
    · exact sgnResult_congr (mutate_and_of_disjoint (by decide))
    · exact manmResult_congr (mutate_and_of_disjoint (by decide))
  · obtain ⟨d, hy⟩ := dispatchF_mantissaShift hop a amt
    have hexp : mutate .mantissa d a amt &&& Config.expMask = a &&& Config.expMask := mutate_and_of_disjoint (by decide)
    rw [hy]
    obtain rfl | rfl | rfl | rfl := hf
    · exact sgnResult_congr (mutate_and_of_disjoint (by decide))
    · exact expuResult_congr hexp
    · exact expmResult_congr hexp
    · exact expbResult_congr hexp
  · obtain ⟨l, d, hy⟩ := dispatchF_laneShift hop a amt
    rw [hy]
    exact mutate_getLsbD_of_not_mask (laneMask_getLsbD_sign l)

/-! ## No shift and full shift (R80, R82) -/

theorem mutate_of_zero {amt : Word32} (h : amt.toInt = 0) (l : Lane) (d : Direction) (a : Word32) :
    mutate l d a amt = a := by
  refine eq_of_laneField_eq (l := l) ?_ fun _ _ hi => mutate_getLsbD_of_not_mask hi
  rw [laneField_mutate, h, Int.natAbs_zero, Nat.zero_min, shiftField_zero]

/-- Settles O21: a count of 0 leaves the lane's field as it was, and the other bits are kept. -/
theorem zeroShiftIsIdentity : Obligations.ZeroShiftIsIdentity := by
  intro a amt op hzero hop
  obtain ⟨l, d, hy⟩ := dispatchF_laneShift hop a amt
  rw [hy, mutate_of_zero hzero]

theorem mutate_of_full {l : Lane} {amt : Word32} (h : laneWidth l ≤ amt.toInt.natAbs) (d : Direction) (a : Word32) :
    mutate l d a amt = a &&& ~~~laneMask l := by
  refine eq_of_laneField_eq (l := l) ?_ fun i hlt hi => ?_
  · rw [laneField_mutate, Nat.min_eq_right h, shiftField_of_width_le le_rfl, laneField_and_not_mask]
  · rw [mutate_getLsbD_of_not_mask hi, BitVec.getLsbD_and, BitVec.getLsbD_not, hi]
    simp [hlt]

/-- Settles O23: the two masks are the complements of the lanes' masks. -/
theorem fullShiftEmptiesLane : Obligations.FullShiftEmptiesLane :=
  fun a _ => ⟨fun h => ⟨mutate_of_full (l := .exponent) h .up a, mutate_of_full (l := .exponent) h .down a⟩,
    fun h => ⟨mutate_of_full (l := .mantissa) h .up a, mutate_of_full (l := .mantissa) h .down a⟩⟩

/-! ## Clamp and sign laws (R81) -/

/-- A mutation reads its amount only through the effective direction and the clamped magnitude. -/
theorem mutate_congr {l : Lane} {d e : Direction} {s t : Word32} (hdir : (resolve d s).1 = (resolve e t).1)
    (hcount : min s.toInt.natAbs (laneWidth l) = min t.toInt.natAbs (laneWidth l)) (a : Word32) :
    mutate l d a s = mutate l e a t := by
  rw [mutate_eq, mutate_eq, hdir, hcount]

/-- R81 (1), (2): two amounts of at least the lane's width act alike. -/
theorem mutate_of_width_le {l : Lane} {s t : Word32} (hs : (laneWidth l : Int) ≤ s.toInt)
    (ht : (laneWidth l : Int) ≤ t.toInt) (d : Direction) (a : Word32) : mutate l d a s = mutate l d a t := by
  refine mutate_congr ?_ (by omega) a
  rw [resolve_of_nonneg (by omega), resolve_of_nonneg (by omega)]

theorem flipDirection_flipDirection (d : Direction) : flipDirection (flipDirection d) = d := by
  cases d <;> rfl

/-- R81 (3): an amount and its negation act alike from opposite directions. -/
theorem mutate_of_neg {s t : Word32} (h : t.toInt = -s.toInt) (l : Lane) (d : Direction) (a : Word32) :
    mutate l d a s = mutate l (flipDirection d) a t := by
  have hcount : min s.toInt.natAbs (laneWidth l) = min t.toInt.natAbs (laneWidth l) := by rw [h, Int.natAbs_neg]
  rcases lt_trichotomy s.toInt 0 with hs | hs | hs
  · refine mutate_congr ?_ hcount a
    rw [resolve_of_neg hs, resolve_of_nonneg (by omega)]
  · rw [mutate_of_zero hs, mutate_of_zero (by omega)]
  · refine mutate_congr ?_ hcount a
    rw [resolve_of_nonneg hs.le, resolve_of_neg (by omega), flipDirection_flipDirection]

/-- Settles O22: the first two clauses are the clamp, the third is negation, and 0x80000000 is a negative amount whose
magnitude is clamped. -/
theorem clampAndSignLaws : Obligations.ClampAndSignLaws := by
  refine fun a s => ⟨fun h => ⟨?_, ?_⟩, fun h => ⟨?_, ?_⟩, fun t h => ⟨?_, ?_⟩, ?_, ?_⟩
  · exact congrArg definedResult (mutate_of_width_le (l := .exponent) h (by decide) .up a)
  · exact congrArg definedResult (mutate_of_width_le (l := .exponent) h (by decide) .down a)
  · exact congrArg definedResult (mutate_of_width_le (l := .mantissa) h (by decide) .up a)
  · exact congrArg definedResult (mutate_of_width_le (l := .mantissa) h (by decide) .down a)
  · exact congrArg definedResult (mutate_of_neg h .exponent .up a)
  · exact congrArg definedResult (mutate_of_neg h .mantissa .up a)
  · exact congrArg definedResult (mutate_congr (l := .exponent) (d := .up) (e := .down) (by decide) (by decide) a)
  · exact congrArg definedResult (mutate_congr (l := .mantissa) (d := .up) (e := .down) (by decide) (by decide) a)

end Sys2Proof.Machine
end

section
/-! SUPPORT. Wanted reserved codes: the flag they set, the strict run they fault, and the safe runs that have none (spec/60_exceptions.md R84, R85, R95). -/

namespace Sys2Proof.Machine

open Sys2Proof

/-! ## Reserved and wanted -/

/-- The five codes of R52. -/
theorem reserved_iff (op : OpCode) :
    op.reserved = true ↔ op = 0x7#4 ∨ op = 0xC#4 ∨ op = 0xD#4 ∨ op = 0xE#4 ∨ op = 0xF#4 := by
  simp only [OpCode.reserved, Bool.or_eq_true, decide_eq_true_eq, or_assoc]

/-- R85 for the code of a slot's inputs. -/
theorem dispatchInputs_ill (i : Inputs) : (dispatchInputs i).ill = i.op.reserved := dispatchF_ill _ _ _

theorem wanted_iff (depth : Nat) (i : Inputs) :
    wanted depth i = true ↔ depth = 0 ∨ (i.clkEdge = true ∧ i.rst = false ∧ i.valid = true) := by
  simp only [wanted, Bool.or_eq_true, Bool.and_eq_true, Bool.not_eq_true', decide_eq_true_eq, and_assoc]

theorem wanted_of_depth_zero {depth : Nat} (h : depth = 0) (i : Inputs) : wanted depth i = true :=
  (wanted_iff depth i).mpr (.inl h)

theorem wanted_of_sampled {i : Inputs} (h : i.sampled) (hv : i.valid = true) (depth : Nat) : wanted depth i = true :=
  (wanted_iff depth i).mpr (.inr ⟨h.1, h.2, hv⟩)

/-- Taking the edge away leaves a slot wanted at depth 0 alone, where it was wanted before. -/
theorem wanted_of_wanted_without_edge {depth : Nat} {i : Inputs} (h : wanted depth { i with clkEdge := false } = true) :
    wanted depth i = true := by
  obtain h0 | ⟨hedge, -, -⟩ := (wanted_iff _ _).mp h
  · exact wanted_of_depth_zero h0 i
  · cases hedge

theorem issuesReserved_iff (depth : Nat) (i : Inputs) :
    issuesReserved depth i = true ↔ i.op.reserved = true ∧ wanted depth i = true := by
  rw [issuesReserved, Bool.and_eq_true, and_comm]

/-- F's flag is 0 on a wanted slot that issues no reserved code. -/
theorem dispatchInputs_ill_of_wanted {depth : Nat} {i : Inputs} (hclean : issuesReserved depth i = false)
    (hw : wanted depth i = true) : (dispatchInputs i).ill = false := by
  rw [dispatchInputs_ill, Bool.eq_false_iff]
  exact fun hr => Bool.eq_false_iff.mp hclean ((issuesReserved_iff depth i).mpr ⟨hr, hw⟩)

theorem issuesReserved_without_edge {depth : Nat} {i : Inputs} (hclean : issuesReserved depth i = false) :
    issuesReserved depth { i with clkEdge := false } = false := by
  rw [Bool.eq_false_iff] at hclean ⊢
  intro h
  obtain ⟨hr, hw⟩ := (issuesReserved_iff _ _).mp h
  exact hclean ((issuesReserved_iff _ _).mpr ⟨hr, wanted_of_wanted_without_edge hw⟩)

/-- Settles O25: the step leaves F of the next slot's inputs on the wires. -/
theorem illFlagIffReservedCode : Obligations.IllFlagIffReservedCode := by
  refine fun s => ⟨_, step_eq_successor s, ?_⟩
  rw [successor_comb, dispatchInputs_ill, reserved_iff]

/-! ## The strict run (log entries 7, 16) -/

theorem strictStep_of_issuesReserved {s : State} (h : issuesReserved s.depth (nextInputs s) = true) :
    strictStep s = .fault (.illegalOp (nextInputs s).op) := if_pos h

theorem strictStep_of_not_issuesReserved {s : State} (h : issuesReserved s.depth (nextInputs s) = false) :
    strictStep s = step s := if_neg (Bool.eq_false_iff.mp h)

/-- Settles O26: the rules' conditions, written out, are those under which the next slot issues a reserved code. -/
theorem strictRunFaultsOnReservedCode : Obligations.StrictRunFaultsOnReservedCode := by
  intro s i bad wants
  have hissue : issuesReserved s.depth i = true ↔ bad ∧ wants := by
    rw [issuesReserved_iff, reserved_iff, wanted_iff, State.depth]
  exact ⟨fun h => strictStep_of_issuesReserved (hissue.mpr h),
    fun h => strictStep_of_not_issuesReserved (Bool.eq_false_iff.mpr fun hi => h (hissue.mp hi))⟩

/-! ## Safe runs (R95) -/

/-- The next slot is the first of the queue, or the levels that stay when it is empty. -/
theorem nextInputs_mem (s : State) : nextInputs s ∈ { s.inp with clkEdge := false } :: s.host := by
  cases h : s.host with
  | nil => simp [nextInputs_nil h]
  | cons d rest => simp [nextInputs_cons h]

theorem nextInputs_clean {s : State} (h : s.cleanQueue) : issuesReserved s.depth (nextInputs s) = false :=
  h _ (nextInputs_mem s)

/-- What enters the wires or S1 is F of a slot that issues no reserved code, and a stage otherwise holds what it held or is
cleared. -/
theorem successor_faultFree {s : State} (hfree : s.faultFree) (hclean : issuesReserved s.depth (nextInputs s) = false) :
    s.successor.faultFree := by
  refine ⟨fun h0 => ?_, fun x hx hv => ?_⟩
  · rw [successor_depth] at h0
    exact dispatchInputs_ill_of_wanted hclean (wanted_of_depth_zero h0 _)
  · obtain hold | rfl | ⟨hs, rfl⟩ := mem_clockStages hx
    · exact hfree.2 x hold hv
    · rfl
    · exact dispatchInputs_ill_of_wanted hclean (wanted_of_sampled hs hv _)

/-- The slots to come are among those that were to come, and the levels that stay are those of the slot just taken. -/
theorem successor_cleanQueue {s : State} (h : s.cleanQueue) : s.successor.cleanQueue := by
  intro i hi
  rw [successor_depth]
  obtain rfl | hi := List.mem_cons.mp hi
  · exact issuesReserved_without_edge (nextInputs_clean h)
  · exact h i (List.mem_cons_of_mem _ (List.mem_of_mem_tail hi))

theorem successor_safe {s : State} (h : s.safe) : s.successor.safe :=
  ⟨successor_faultFree h.1 (nextInputs_clean h.2), successor_cleanQueue h.2⟩

/-- Settles O53: a clean queue keeps the strict run on the step, which keeps both halves of safety. -/
theorem safeRunsStaySafe : Obligations.SafeRunsStaySafe := by
  intro s h
  have hstep : strictStep s = step s := strictStep_of_not_issuesReserved (nextInputs_clean h.2)
  exact ⟨s.successor, hstep.trans (step_eq_successor s), step_eq_successor s, successor_safe h⟩

end Sys2Proof.Machine
end

section
/-! SUPPORT. A stopped clock (spec/60_exceptions.md R94). -/

namespace Sys2Proof.Machine

open Sys2Proof

/-- R32: above depth 0 the outputs are a function of the stages. -/
theorem outputs_congr_of_stages {s t : State} (hpos : 0 < s.depth) (h : t.stages = s.stages) : outputs t = outputs s := by
  have hlast := List.getLast?_eq_some_getLast (List.ne_nil_of_length_pos hpos)
  rw [outputs_last hlast, outputs_last ((congrArg List.getLast? h).trans hlast)]

/-- Settles O41: without an edge the stages stay, and above depth 0 the outputs read nothing else. -/
theorem stoppedClockHoldsStages : Obligations.StoppedClockHoldsStages := by
  intro s hidle
  have hstages := successor_stages_of_idle hidle
  exact ⟨s.successor, step_eq_successor s, hstages, fun hpos => outputs_congr_of_stages hpos hstages⟩

end Sys2Proof.Machine
end

section
/-! SUPPORT. A sample on its way through the stages, and its discard by a reset edge (spec/70_reset_and_hazards.md R101, R102). -/

namespace Sys2Proof.Machine

open Sys2Proof

/-! ## The slots to come -/

/-- One of the next `n` slots is a reset edge: those past the end of the queue bring none (log entry 2). -/
def State.resetIn (s : State) (n : Nat) : Prop := ∃ i ∈ s.host.take n, i.resetEdge

theorem not_resetIn_zero (s : State) : ¬s.resetIn 0 := by simp [State.resetIn]

theorem resetIn_succ (s : State) (n : Nat) :
    s.resetIn (n + 1) ↔ (nextInputs s).resetEdge ∨ s.successor.resetIn n := by
  rw [State.resetIn, State.resetIn, successor_host]
  cases h : s.host with
  | nil => simp [nextInputs_nil h, Inputs.resetEdge]
  | cons d rest => simp [nextInputs_cons h]

theorem resetIn_of_host {s : State} {later rest : List Inputs} (h : s.host = later ++ rest) :
    s.resetIn later.length ↔ ∃ i ∈ later, i.resetEdge := by
  rw [State.resetIn, h, List.take_left]

theorem edgesIn_of_host {s : State} {later rest : List Inputs} (h : s.host = later ++ rest) :
    s.edgesIn later.length = (later.filter (·.clkEdge)).length := by
  rw [State.edgesIn, h, List.take_left]

theorem not_resetIn_of_sampled {s : State} {n : Nat} (h : ∀ i ∈ s.host.take n, i.sampled) : ¬s.resetIn n := by
  rintro ⟨i, hi, -, hrst⟩
  exact Bool.eq_false_iff.mp (h i hi).2 hrst

/-- With a sample in each of the next `n` slots they bring `n` edges. -/
theorem edgesIn_of_sampled {s : State} {n : Nat} (h : ∀ i ∈ s.host.take n, i.sampled) (hn : n ≤ s.host.length) :
    s.edgesIn n = n := by
  rw [State.edgesIn, List.filter_eq_self.mpr fun i hi => (h i hi).1, List.length_take_of_le hn]

theorem iterate_successor_host (n : Nat) (s : State) : (State.successor^[n] s).host = s.host.drop n := by
  induction n generalizing s with
  | zero => rfl
  | succ n ih => rw [Function.iterate_succ_apply, ih, successor_host, List.drop_tail]

theorem nextInputs_of_head? {s : State} {d : Inputs} (h : s.host.head? = some d) : nextInputs s = d := by
  obtain ⟨rest, hhost⟩ := List.head?_eq_some_iff.mp h
  exact nextInputs_cons hhost

/-! ## The way of a stage's content (R31, R32) -/

/-- A slot without a reset edge moves a stage's content on by one at an edge, and leaves it in place without one. -/
theorem successor_moves_stage {s : State} {j : Nat} {x : Stage} (hno : ¬(nextInputs s).resetEdge)
    (hx : s.stages[j]? = some x) (hj : j + (nextInputs s).clkEdge.toNat < s.depth) :
    s.successor.stages[j + (nextInputs s).clkEdge.toNat]? = some x := by
  cases he : (nextInputs s).clkEdge with
  | false => rwa [successor_stages_of_idle he]
  | true =>
    rw [he] at hj
    exact successor_stages_of_sampled (sampled_of_edge he hno) ▸ (shiftIn_getElem?_succ _ hj).trans hx

theorem iterate_successor_moves_stage {s : State} {j : Nat} {x : Stage} (n : Nat) (hno : ¬s.resetIn n)
    (hx : s.stages[j]? = some x) (hj : j + s.edgesIn n < s.depth) :
    (State.successor^[n] s).stages[j + s.edgesIn n]? = some x := by
  induction n generalizing s j with
  | zero => exact hx
  | succ n ih =>
    rw [resetIn_succ, not_or] at hno
    rw [edgesIn_succ, ← Nat.add_assoc] at hj ⊢
    have hmoved := successor_moves_stage hno.1 hx (Nat.lt_of_le_of_lt (Nat.le_add_right _ _) hj)
    exact ih hno.2 hmoved (by rwa [successor_depth])

theorem outputs_of_last_stage {s : State} {e : Nat} {x : Stage} (hx : s.stages[e]? = some x) (he : e + 1 = s.depth) :
    outputs s = { valid := some x.v, y := x.y, ill := x.ill } := by
  refine outputs_last ?_
  rwa [List.getLast?_eq_getElem?, ← State.depth, ← he]

/-- The latency of R101: the sample enters S1, and each further edge moves it on until it stands in the last stage. -/
theorem outputs_of_sample {s : State} {n : Nat} (hs : (nextInputs s).sampled) (hno : ¬s.successor.resetIn n)
    (hlat : s.successor.edgesIn n + 1 = s.depth) :
    outputs (State.successor^[n + 1] s) =
      { valid := some (sampleOf (nextInputs s)).v
        y := (sampleOf (nextInputs s)).y
        ill := (sampleOf (nextInputs s)).ill } := by
  have hpos : 0 < s.depth := hlat ▸ Nat.succ_pos _
  have hS1 : s.successor.stages[0]? = some (sampleOf (nextInputs s)) := by
    rw [successor_stages_of_sampled hs, shiftIn_getElem?_zero _ hpos]
  have hlast := iterate_successor_moves_stage n hno hS1 (by rw [successor_depth]; omega)
  refine outputs_of_last_stage hlast ?_
  rw [Function.iterate_succ_apply, iterate_successor_depth, successor_depth, Nat.zero_add, hlat]

/-! ## Discard by a reset edge (R97, R101) -/

/-- A reset edge leaves a state in which nothing of the stages' content is left. -/
theorem successor_eq_of_resetEdge {s t : State} (hhost : s.host = t.host) (hdepth : s.depth = t.depth)
    (h : (nextInputs s).resetEdge) : s.successor = t.successor := by
  have hnext : nextInputs t = nextInputs s := by
    cases hs : s.host with
    | nil =>
      rw [nextInputs_nil hs] at h
      cases h.1
    | cons d rest => rw [nextInputs_cons hs, nextInputs_cons (hhost ▸ hs)]
  have hstages : s.successor.stages = t.successor.stages := by
    rw [successor_stages_of_resetEdge h, successor_stages_of_resetEdge (hnext ▸ h), hdepth]
  rw [State.mk.injEq]
  exact ⟨hnext.symm, congrArg dispatchInputs hnext.symm, hstages, congrArg List.tail hhost⟩

theorem run_eq_of_resetIn {s t : State} {n : Nat} (hhost : s.host = t.host) (hdepth : s.depth = t.depth)
    (h : s.resetIn n) : Host.Core.run core n s = Host.Core.run core n t := by
  induction n generalizing s t with
  | zero => exact absurd h (not_resetIn_zero s)
  | succ n ih =>
    rw [run_succ, run_succ]
    obtain hnow | hlater := (resetIn_succ s n).mp h
    · rw [successor_eq_of_resetEdge hhost hdepth hnow]
    · refine ih ?_ ?_ hlater
      · rw [successor_host, successor_host, hhost]
      · rw [successor_depth, successor_depth, hdepth]

/-- From the first reset edge on the outputs are cleared (`resetEdgeClears`) while no more edges come, it included, than there
are stages. -/
theorem outputs_cleared_of_resetIn {s : State} {n : Nat} (h : s.resetIn n) (hle : s.edgesIn n ≤ s.depth) :
    ∃ t, Host.Core.run core n s = .next t ∧ outputs t = { valid := some false, y := 0x00000000#32, ill := false } := by
  induction n generalizing s with
  | zero => exact absurd h (not_resetIn_zero s)
  | succ n ih =>
    rw [edgesIn_succ] at hle
    obtain ⟨he, hr⟩ | hlater := (resetIn_succ s n).mp h
    · rw [he, Bool.toNat_true, Nat.add_comm] at hle
      exact ((resetEdgeClears s hr).2 he).2 n hle
    · rw [run_succ]
      exact ih hlater (by rw [successor_depth]; omega)

/-- Settles O51: without a reset edge the sample moves on to the last stage; a reset edge makes equal the runs of any two
samples, and clears the outputs. -/
theorem sampleLatencyAndDiscard : Obligations.SampleLatencyAndDiscard := by
  intro s d later rest hhost hd
  have hnext : nextInputs s = d := nextInputs_cons hhost
  have hqueue : s.successor.host = later ++ rest := by rw [successor_host, hhost, List.tail_cons]
  have hedges := edgesIn_of_host hqueue
  refine ⟨fun hno hlat => ?_, fun hreset => ?_⟩
  · have hnoReset : ¬s.successor.resetIn later.length := by
      rw [resetIn_of_host hqueue]
      rintro ⟨i, hi, he, hr⟩
      exact Bool.eq_false_iff.mp (hno i hi he) hr
    refine ⟨_, run_eq_iterate _ s, ?_, ?_⟩
    · rw [Function.iterate_succ_apply, iterate_successor_host, hqueue, List.drop_left]
    · rw [outputs_of_sample (hnext ▸ hd) hnoReset (hedges ▸ hlat), hnext]
      rfl
  · have hresetIn : s.successor.resetIn later.length := (resetIn_of_host hqueue).mpr hreset
    refine ⟨fun d' => ⟨_, run_eq_iterate _ s, ?_⟩, fun hlat => ?_⟩
    · rw [← run_eq_iterate, run_succ, run_succ]
      have hdepth := successor_depth { s with host := d' :: (later ++ rest) }
      exact Eq.symm (run_eq_of_resetIn hqueue ((successor_depth s).trans hdepth.symm) hresetIn)
    · rw [run_succ]
      exact outputs_cleared_of_resetIn hresetIn (by rw [hedges, successor_depth]; omega)

/-- Settles O52: after `j` edges sample `j` is the next one, and its latency is the depth, for each slot after it is an edge
too. -/
theorem resultsLeaveInOrder : Obligations.ResultsLeaveInOrder := by
  intro s samples rest hhost hsampled hpos j d hj hle
  obtain ⟨n, hn⟩ := Nat.exists_eq_succ_of_ne_zero hpos.ne'
  have hnext : nextInputs (State.successor^[j] s) = d := by
    refine nextInputs_of_head? ?_
    rw [iterate_successor_host, List.head?_drop, hhost, List.getElem?_append_left (by omega), hj]
  have hqueue : (State.successor^[j] s).successor.host = samples.drop (j + 1) ++ rest := by
    rw [successor_host, iterate_successor_host, List.tail_drop, hhost, List.drop_append_of_le_length (by omega)]
  have hlater : ∀ i ∈ (State.successor^[j] s).successor.host.take n, i.sampled := by
    rw [hqueue, List.take_append_of_le_length (by rw [List.length_drop]; omega)]
    exact fun i hi => hsampled i (List.mem_of_mem_drop (List.mem_of_mem_take hi))
  have hedges := edgesIn_of_sampled hlater (by rw [hqueue, List.length_append, List.length_drop]; omega)
  refine ⟨_, run_eq_iterate _ s, ?_⟩
  rw [Nat.add_comm, Function.iterate_add_apply, hn,
    outputs_of_sample (hnext ▸ hsampled d (List.mem_of_getElem? hj)) (not_resetIn_of_sampled hlater)
      (by rw [hedges, iterate_successor_depth, hn]), hnext]
  rfl

end Sys2Proof.Machine
end
